-- ==== Sys2Proof/Word.lean ====
section
/-! DEFINITION. The word types of the engine (00_scope.md R5, R6): every value is an unsigned bit string. -/

namespace Sys2Proof

/-- A host-visible register, a cursor or a command word: `REGW = CW = 32` bits (00_scope.md R5). -/
abbrev Word := BitVec 32

/-- One byte of the buffer space BUF (20_memory.md R30). -/
abbrev Byte := BitVec 8

/-- One bit of a stream (41_bit_writer.md R70). -/
abbrev Bit := BitVec 1

/-- A symbol: `SYMW = 8` bits, so exactly the values 0 to 255 (00_scope.md R5). -/
abbrev Sym := BitVec 8

end Sys2Proof
end

