-- ==== Sys2Proof/Syntax.lean ====
section
/-! DEFINITION. The six commands (30_encoding.md R47), one constructor per row of opcode_table.json. Every operand has
exactly the width of its field (R46, R48). -/

namespace Sys2Proof

/-- A command of the engine (30_encoding.md R47). -/
inductive Instr where
  /-- `WRBIT bit` (41_bit_writer.md R71), format B. -/
  | wrbit (bit : Bit)
  /-- `RDBIT` (42_bit_reader.md R76), format N. -/
  | rdbit
  /-- `ENC sym` (43_encoder.md R80), format S24: the operand is the whole 24-bit field. -/
  | enc (sym : BitVec 24)
  /-- `DEC` (44_decoder.md R87), format N. -/
  | dec
  /-- `LKSYM sym` (40_code_table.md R62), format S8. -/
  | lksym (sym : Sym)
  /-- `LKPAT pat, len` (40_code_table.md R63), format P. -/
  | lkpat (pat : BitVec 12) (len : BitVec 4)
deriving DecidableEq, Repr

end Sys2Proof
end

