-- ==== Sys2Proof/Transaction.lean ====
section
/-! DEFINITION. The host's side: the five registers (10_state.md R25), the alphabet of host
transactions (R28) and what a read returns (R26, 20_memory.md R39). -/

namespace Sys2Proof

/-- The host-visible registers (10_state.md R25). -/
inductive HostReg where
  | cmd | wcur | rcur | res | status
deriving DecidableEq, Repr

/-- A host transaction: a step of the whole system is exactly one of these (10_state.md R28). -/
inductive HostTx where
  /-- `HRD reg`: read a register (R26). -/
  | hrd (reg : HostReg)
  /-- `HWR reg, v`: write a register; to `CMD`, execute a command (R27). -/
  | hwr (reg : HostReg) (v : Word)
  /-- `BRD addr`: read a BUF byte (20_memory.md R39). -/
  | brd (addr : Nat)
  /-- `BWR addr, v`: write a BUF byte (20_memory.md R39). -/
  | bwr (addr : Nat) (v : Byte)
  /-- `RESET` (70_reset_and_hazards.md R115). -/
  | reset
deriving DecidableEq, Repr

/-- What a host read returns: a register's 32 bits (10_state.md R26) or a BUF byte (20_memory.md R39). -/
inductive Response where
  | word (v : Word)
  | byte (v : Byte)
deriving DecidableEq, Repr

end Sys2Proof
end

