-- ==== Sys2Proof/Assembly.lean ====
section
/-! DEFINITION. The lines of the assembler notation of 30_encoding.md R52, with the two pseudo-instructions of R53. -/

namespace Sys2Proof

/-- A line of the notation (30_encoding.md R52, R53); literals are integers, as they are written. -/
inductive AsmLine where
  | hwr (reg : HostReg) (v : Word)
  | hrd (reg : HostReg)
  | bwr (addr : Nat) (v : Byte)
  | brd (addr : Nat)
  | reset
  | wrbit (bit : Nat)
  | rdbit
  /-- A negative literal is taken in 24-bit two's complement (R52). -/
  | enc (sym : Int)
  | dec
  | lksym (sym : Nat)
  | lkpat (pat len : Nat)
  /-- `SETW v`, a write of `WCUR` (R53). -/
  | setw (v : Word)
  /-- `SETR v`, a write of `RCUR` (R53). -/
  | setr (v : Word)
deriving DecidableEq, Repr

end Sys2Proof
end

