-- ==== Sys2Proof/WellFormed.lean ====
section
/-! DEFINITION. Which terms stand for something the spec admits: commands, host transactions on a BUF of a given size,
and assembler lines. (Which tables the spec admits is `Table.Admissible`, in Table.lean.) -/

namespace Sys2Proof

/-- A command is well formed when its operands fit their fields (30_encoding.md R46, R48). Each operand's type has
exactly its field's width and every value of a field is legal, so this asks nothing further of any command. -/
def Instr.wf : Instr → Bool
  | .wrbit _ => true
  | .rdbit => true
  | .enc _ => true
  | .dec => true
  | .lksym _ => true
  | .lkpat _ _ => true

/-- A host transaction is well formed when a BUF access lies in `0 <= addr < BUF_BYTES` (20_memory.md R39). -/
def HostTx.wf (bufBytes : Nat) : HostTx → Bool
  | .hrd _ => true
  | .hwr _ _ => true
  | .brd addr => decide (addr < bufBytes)
  | .bwr addr _ => decide (addr < bufBytes)
  | .reset => true

/-- An assembler line is well formed when its literals lie in the ranges of 30_encoding.md R52. -/
def AsmLine.wf : AsmLine → Bool
  | .hwr _ _ => true
  | .hrd _ => true
  | .bwr _ _ => true
  | .brd _ => true
  | .reset => true
  | .wrbit bit => decide (bit < 2)
  | .rdbit => true
  | .enc sym => decide (-2 ^ 23 ≤ sym ∧ sym < 2 ^ 24)
  | .dec => true
  | .lksym sym => decide (sym < 256)
  | .lkpat pat len => decide (pat < 4096 ∧ len < 16)
  | .setw _ => true
  | .setr _ => true

end Sys2Proof
end

