-- ==== Sys2Proof/Decode.lean ====
section
/-! DEFINITION. The opcode map (30_encoding.md R46, R47), the decoder of command words, total on all 2^32 words and
rejecting by name (R49); after it the encoder, and the assembler notation (R52, R53). -/

namespace Sys2Proof

/-- The six opcodes (30_encoding.md R47). -/
inductive Opcode where
  | wrbit | rdbit | enc | dec | lksym | lkpat
deriving DecidableEq, Repr

/-- A row of the opcode map: the word `w` selects it when `w & mask = match` (30_encoding.md R47). -/
structure OpcodeRow where
  op : Opcode
  matchBits : Word
  mask : Word
deriving DecidableEq, Repr

/-- Why a word is illegal (30_encoding.md R49). -/
inductive DecodeError where
  /-- `w[31:24]` is not one of 0x01 to 0x06 (93_implementation_defined.md RE1). -/
  | unknownOpcode (byte : BitVec 8)
  /-- The opcode is defined and a reserved field of its format is not zero (93_implementation_defined.md RE2). -/
  | reservedBits (op : Opcode)
deriving DecidableEq, Repr

/-- The opcode byte `w[31:24]` of each command (30_encoding.md R47). -/
def Opcode.byte : Opcode → BitVec 8
  | .wrbit => 0x01#8
  | .rdbit => 0x02#8
  | .enc => 0x03#8
  | .dec => 0x04#8
  | .lksym => 0x05#8
  | .lkpat => 0x06#8

/-- The match and mask columns of the opcode map (30_encoding.md R47, opcode_table.json). -/
def opcodeTable : List OpcodeRow :=
  [⟨.wrbit, 0x01000000#32, 0xFFFFFFFE#32⟩,
   ⟨.rdbit, 0x02000000#32, 0xFFFFFFFF#32⟩,
   ⟨.enc, 0x03000000#32, 0xFF000000#32⟩,
   ⟨.dec, 0x04000000#32, 0xFFFFFFFF#32⟩,
   ⟨.lksym, 0x05000000#32, 0xFFFFFF00#32⟩,
   ⟨.lkpat, 0x06000000#32, 0xFFFF0000#32⟩]

/-- `w & mask = match` (30_encoding.md R47). -/
def OpcodeRow.selects (r : OpcodeRow) (w : Word) : Bool := w &&& r.mask == r.matchBits

/-- The operands of a command, taken from its fields as unsigned numbers (30_encoding.md R46, R48). -/
def operands : Opcode → Word → Instr
  | .wrbit, w => .wrbit (w.extractLsb' 0 1)
  | .rdbit, _ => .rdbit
  | .enc, w => .enc (w.extractLsb' 0 24)
  | .dec, _ => .dec
  | .lksym, w => .lksym (w.extractLsb' 0 8)
  | .lkpat, w => .lkpat (w.extractLsb' 0 12) (w.extractLsb' 12 4)

/-- The name under which a word that selects no row is rejected (30_encoding.md R49). -/
def rejection (w : Word) : DecodeError :=
  match opcodeTable.find? (fun r => r.op.byte == w.extractLsb' 24 8) with
  | some r => .reservedBits r.op
  | none => .unknownOpcode (w.extractLsb' 24 8)

/-- The decoder of command words: the row the word selects, or a rejection (30_encoding.md R45, R47, R49). -/
def decode (w : Word) : Except DecodeError Instr :=
  match opcodeTable.find? (fun r => r.selects w) with
  | some r => .ok (operands r.op w)
  | none => .error (rejection w)

/-- The opcode of a command (30_encoding.md R47). -/
def Instr.opcode : Instr → Opcode
  | .wrbit _ => .wrbit
  | .rdbit => .rdbit
  | .enc _ => .enc
  | .dec => .dec
  | .lksym _ => .lksym
  | .lkpat _ _ => .lkpat

/-- The argument field `w[23:0]` of a command, field by field from the format table (30_encoding.md R46). -/
def Instr.argument : Instr → BitVec 24
  | .wrbit bit => 0#23 ++ bit
  | .rdbit => 0#24
  | .enc sym => sym
  | .dec => 0#24
  | .lksym sym => 0#16 ++ sym
  | .lkpat pat len => 0#8 ++ len ++ pat

/-- The command word of a command: opcode byte, then argument field (30_encoding.md R45, R46). -/
def encode (i : Instr) : Word := i.opcode.byte ++ i.argument

/-- The host transaction a line stands for (30_encoding.md R52, R53). For an ill-formed line it means nothing (DESIGN
CHOICE, log entry 13). -/
def AsmLine.transaction : AsmLine → HostTx
  | .hwr reg v => .hwr reg v
  | .hrd reg => .hrd reg
  | .bwr addr v => .bwr addr v
  | .brd addr => .brd addr
  | .reset => .reset
  | .wrbit bit => .hwr .cmd (BitVec.ofNat 32 (0x01000000 + bit))
  | .rdbit => .hwr .cmd 0x02000000#32
  | .enc sym => .hwr .cmd (BitVec.ofNat 32 (0x03000000 + (sym % 2 ^ 24).toNat))
  | .dec => .hwr .cmd 0x04000000#32
  | .lksym sym => .hwr .cmd (BitVec.ofNat 32 (0x05000000 + sym))
  | .lkpat pat len => .hwr .cmd (BitVec.ofNat 32 (0x06000000 + len * 4096 + pat))
  | .setw v => .hwr .wcur v
  | .setr v => .hwr .rcur v

/-- The decoder on a word numbered as opcode_table.json numbers it. A command is one 32-bit word (30_encoding.md R45);
a number that does not fit in 32 bits is no command word (DEDUCED, log entry 12). -/
def decodeTableWord (nbits w : Nat) : Option Instr :=
  if w % 2 ^ nbits < 2 ^ 32 then (decode (BitVec.ofNat 32 (w % 2 ^ nbits))).toOption else none

end Sys2Proof
end

