-- ==== Sys2Proof/Table.lean ====
section
/-! DEFINITION. The Code Table: its entries (10_state.md R11), and the conditions W2 to W6 that make a table
admissible (R12; W1 is the type's own length). -/

namespace Sys2Proof

/-- A Code Entry `(pat, len)`: `PATW = 11` and `LENW = 4` bits (10_state.md R11, 00_scope.md R5). -/
@[ext] structure CodeEntry where
  pat : BitVec 11
  len : BitVec 4
deriving DecidableEq, Repr, Inhabited

/-- The ROM's contents, indexed by symbol value. Its length 256 is condition W1 of 10_state.md R12. -/
abbrev Table := Vector CodeEntry 256

/-- `Rom(s)` of 00_scope.md R7. -/
def Table.entry (t : Table) (s : Sym) : CodeEntry := t[s.toNat]'s.isLt

/-- W2: every length lies in 2 to 11 (10_state.md R12). -/
abbrev Table.LengthsInRange (t : Table) : Prop :=
  ∀ s : Sym, 2 ≤ (t.entry s).len.toNat ∧ (t.entry s).len.toNat ≤ 11

/-- W3: both extremes are attained (10_state.md R12). -/
abbrev Table.ExtremesAttained (t : Table) : Prop :=
  (∃ s : Sym, (t.entry s).len.toNat = 2) ∧ (∃ s : Sym, (t.entry s).len.toNat = 11)

/-- W4: no pattern has a bit at or above its length (10_state.md R12). -/
abbrev Table.Normalised (t : Table) : Prop :=
  ∀ s : Sym, (t.entry s).pat.toNat < 2 ^ (t.entry s).len.toNat

/-- W5: distinct symbols have distinct entries (10_state.md R12). -/
abbrev Table.NoDuplicates (t : Table) : Prop :=
  ∀ a b : Sym, a ≠ b → t.entry a ≠ t.entry b

/-- W6: no code is a prefix of another, the prefix of a code being the LOW bits of its pattern
(10_state.md R12). -/
abbrev Table.PrefixFree (t : Table) : Prop :=
  ∀ a b : Sym, a ≠ b → (t.entry a).len.toNat ≤ (t.entry b).len.toNat →
    (t.entry b).pat.toNat % 2 ^ (t.entry a).len.toNat
      ≠ (t.entry a).pat.toNat % 2 ^ (t.entry a).len.toNat

/-- An admissible value of the parameter `TABLE` (10_state.md R12). -/
structure Table.Admissible (t : Table) : Prop where
  lengths : t.LengthsInRange
  extremes : t.ExtremesAttained
  normalised : t.Normalised
  noDuplicates : t.NoDuplicates
  prefixFree : t.PrefixFree

/-- A table together with the proof that it is admissible: what the parameter `TABLE` ranges over. -/
abbrev AdmissibleTable := { t : Table // t.Admissible }

end Sys2Proof
end

