-- ==== Sys2Proof/Fixture.lean ====
section
/-! DEFINITION. Fixture table T1 of 95_test_vectors.md section 2, copied from its full listing. T1 is the spec's own
invention and NOT the canonical dfengine table (10_state.md R13): the model uses it in tests, and to show that an
admissible table exists. No claim rests on its entries. -/

namespace Sys2Proof

/-- T1, symbols 0 to 15, as (pat, len). -/
def fixtureCodes0 : List (Nat × Nat) :=
  [(0x000, 2), (0x002, 4), (0x00A, 5), (0x01A, 5), (0x006, 6), (0x026, 6), (0x016, 6), (0x036, 6),
   (0x00E, 7), (0x04E, 7), (0x02E, 7), (0x06E, 7), (0x01E, 7), (0x05E, 7), (0x03E, 7), (0x07E, 7)]

/-- T1, symbols 16 to 31, as (pat, len). -/
def fixtureCodes1 : List (Nat × Nat) :=
  [(0x001, 8), (0x081, 8), (0x041, 8), (0x0C1, 8), (0x021, 8), (0x0A1, 8), (0x061, 8), (0x0E1, 8),
   (0x011, 8), (0x091, 8), (0x051, 8), (0x0D1, 8), (0x031, 8), (0x0B1, 8), (0x071, 8), (0x0F1, 8)]

/-- T1, symbols 32 to 47, as (pat, len). -/
def fixtureCodes2 : List (Nat × Nat) :=
  [(0x009, 9), (0x109, 9), (0x089, 9), (0x189, 9), (0x049, 9), (0x149, 9), (0x0C9, 9), (0x1C9, 9),
   (0x029, 9), (0x129, 9), (0x0A9, 9), (0x1A9, 9), (0x069, 9), (0x169, 9), (0x0E9, 9), (0x1E9, 9)]

/-- T1, symbols 48 to 63, as (pat, len). -/
def fixtureCodes3 : List (Nat × Nat) :=
  [(0x019, 9), (0x119, 9), (0x099, 9), (0x199, 9), (0x059, 9), (0x159, 9), (0x0D9, 9), (0x1D9, 9),
   (0x039, 9), (0x139, 9), (0x0B9, 9), (0x1B9, 9), (0x079, 9), (0x179, 9), (0x0F9, 9), (0x1F9, 9)]

/-- T1, symbols 64 to 79, as (pat, len). -/
def fixtureCodes4 : List (Nat × Nat) :=
  [(0x005, 10), (0x205, 10), (0x105, 10), (0x305, 10), (0x085, 10), (0x285, 10), (0x185, 10), (0x385, 10),
   (0x045, 10), (0x245, 10), (0x145, 10), (0x345, 10), (0x0C5, 10), (0x2C5, 10), (0x1C5, 10), (0x3C5, 10)]

/-- T1, symbols 80 to 95, as (pat, len). -/
def fixtureCodes5 : List (Nat × Nat) :=
  [(0x025, 10), (0x225, 10), (0x125, 10), (0x325, 10), (0x0A5, 10), (0x2A5, 10), (0x1A5, 10), (0x3A5, 10),
   (0x065, 10), (0x265, 10), (0x165, 10), (0x365, 10), (0x0E5, 10), (0x2E5, 10), (0x1E5, 10), (0x3E5, 10)]

/-- T1, symbols 96 to 111, as (pat, len). -/
def fixtureCodes6 : List (Nat × Nat) :=
  [(0x015, 10), (0x215, 10), (0x115, 10), (0x315, 10), (0x095, 10), (0x295, 10), (0x195, 10), (0x395, 10),
   (0x055, 10), (0x255, 10), (0x155, 10), (0x355, 10), (0x0D5, 10), (0x2D5, 10), (0x1D5, 10), (0x3D5, 10)]

/-- T1, symbols 112 to 127, as (pat, len). -/
def fixtureCodes7 : List (Nat × Nat) :=
  [(0x035, 10), (0x235, 10), (0x135, 10), (0x335, 10), (0x0B5, 10), (0x2B5, 10), (0x1B5, 10), (0x3B5, 10),
   (0x075, 10), (0x275, 10), (0x175, 10), (0x375, 10), (0x0F5, 10), (0x2F5, 10), (0x1F5, 10), (0x3F5, 10)]

/-- T1, symbols 128 to 143, as (pat, len). -/
def fixtureCodes8 : List (Nat × Nat) :=
  [(0x00D, 11), (0x40D, 11), (0x20D, 11), (0x60D, 11), (0x10D, 11), (0x50D, 11), (0x30D, 11), (0x70D, 11),
   (0x08D, 11), (0x48D, 11), (0x28D, 11), (0x68D, 11), (0x18D, 11), (0x58D, 11), (0x38D, 11), (0x78D, 11)]

/-- T1, symbols 144 to 159, as (pat, len). -/
def fixtureCodes9 : List (Nat × Nat) :=
  [(0x04D, 11), (0x44D, 11), (0x24D, 11), (0x64D, 11), (0x14D, 11), (0x54D, 11), (0x34D, 11), (0x74D, 11),
   (0x0CD, 11), (0x4CD, 11), (0x2CD, 11), (0x6CD, 11), (0x1CD, 11), (0x5CD, 11), (0x3CD, 11), (0x7CD, 11)]

/-- T1, symbols 160 to 175, as (pat, len). -/
def fixtureCodes10 : List (Nat × Nat) :=
  [(0x02D, 11), (0x42D, 11), (0x22D, 11), (0x62D, 11), (0x12D, 11), (0x52D, 11), (0x32D, 11), (0x72D, 11),
   (0x0AD, 11), (0x4AD, 11), (0x2AD, 11), (0x6AD, 11), (0x1AD, 11), (0x5AD, 11), (0x3AD, 11), (0x7AD, 11)]

/-- T1, symbols 176 to 191, as (pat, len). -/
def fixtureCodes11 : List (Nat × Nat) :=
  [(0x06D, 11), (0x46D, 11), (0x26D, 11), (0x66D, 11), (0x16D, 11), (0x56D, 11), (0x36D, 11), (0x76D, 11),
   (0x0ED, 11), (0x4ED, 11), (0x2ED, 11), (0x6ED, 11), (0x1ED, 11), (0x5ED, 11), (0x3ED, 11), (0x7ED, 11)]

/-- T1, symbols 192 to 207, as (pat, len). -/
def fixtureCodes12 : List (Nat × Nat) :=
  [(0x01D, 11), (0x41D, 11), (0x21D, 11), (0x61D, 11), (0x11D, 11), (0x51D, 11), (0x31D, 11), (0x71D, 11),
   (0x09D, 11), (0x49D, 11), (0x29D, 11), (0x69D, 11), (0x19D, 11), (0x59D, 11), (0x39D, 11), (0x79D, 11)]

/-- T1, symbols 208 to 223, as (pat, len). -/
def fixtureCodes13 : List (Nat × Nat) :=
  [(0x05D, 11), (0x45D, 11), (0x25D, 11), (0x65D, 11), (0x15D, 11), (0x55D, 11), (0x35D, 11), (0x75D, 11),
   (0x0DD, 11), (0x4DD, 11), (0x2DD, 11), (0x6DD, 11), (0x1DD, 11), (0x5DD, 11), (0x3DD, 11), (0x7DD, 11)]

/-- T1, symbols 224 to 239, as (pat, len). -/
def fixtureCodes14 : List (Nat × Nat) :=
  [(0x03D, 11), (0x43D, 11), (0x23D, 11), (0x63D, 11), (0x13D, 11), (0x53D, 11), (0x33D, 11), (0x73D, 11),
   (0x0BD, 11), (0x4BD, 11), (0x2BD, 11), (0x6BD, 11), (0x1BD, 11), (0x5BD, 11), (0x3BD, 11), (0x7BD, 11)]

/-- T1, symbols 240 to 255, as (pat, len). -/
def fixtureCodes15 : List (Nat × Nat) :=
  [(0x07D, 11), (0x47D, 11), (0x27D, 11), (0x67D, 11), (0x17D, 11), (0x57D, 11), (0x37D, 11), (0x77D, 11),
   (0x0FD, 11), (0x4FD, 11), (0x2FD, 11), (0x6FD, 11), (0x1FD, 11), (0x5FD, 11), (0x3FD, 11), (0x7FD, 11)]

/-- The whole listing of T1. -/
def fixtureCodes : List (Nat × Nat) :=
  fixtureCodes0 ++ (fixtureCodes1 ++ (fixtureCodes2 ++ (fixtureCodes3 ++ (fixtureCodes4 ++ (fixtureCodes5
    ++ (fixtureCodes6 ++ (fixtureCodes7 ++ (fixtureCodes8 ++ (fixtureCodes9 ++ (fixtureCodes10 ++ (fixtureCodes11
    ++ (fixtureCodes12 ++ (fixtureCodes13 ++ (fixtureCodes14 ++ fixtureCodes15))))))))))))))

/-- A listed pair as a Code Entry. -/
def CodeEntry.ofPair (p : Nat × Nat) : CodeEntry := ⟨BitVec.ofNat 11 p.1, BitVec.ofNat 4 p.2⟩

/-- The listing has one row per symbol (W1). -/
theorem fixtureCodes_length : fixtureCodes.length = 256 := by decide +kernel

/-- Fixture table T1 (95_test_vectors.md section 2). -/
def fixtureT1 : Table :=
  ⟨(fixtureCodes.map CodeEntry.ofPair).toArray, by simp [fixtureCodes_length]⟩

/-- The low `n` bits of `v` in reverse order. -/
def reverseBits : Nat → Nat → Nat
  | 0, _ => 0
  | n + 1, v => (v % 2) * 2 ^ n + reverseBits n (v / 2)

/-- The symbol a T1 entry belongs to, read back from its header and its low bits (95_test_vectors.md section 2). -/
def fixtureSymbol (e : CodeEntry) : Nat :=
  if e.len = 2#4 then 0
  else 2 ^ (e.len.toNat - 4) + reverseBits (e.len.toNat - 4) (e.pat.toNat / 16)

/-- Each T1 entry gives its symbol back. -/
theorem fixtureSymbol_entry : ∀ s : Sym, fixtureSymbol (fixtureT1.entry s) = s.toNat := by
  decide +kernel

/-- The first four stream bits of a T1 code other than symbol 0's spell its length, and its first two are not 00. -/
theorem fixtureT1_header : ∀ s : Sym, s ≠ 0#8 →
    (fixtureT1.entry s).len.toNat = reverseBits 4 ((fixtureT1.entry s).pat.toNat % 16)
      ∧ (fixtureT1.entry s).pat.toNat % 4 ≠ 0
      ∧ 4 ≤ (fixtureT1.entry s).len.toNat ∧ (fixtureT1.entry s).len.toNat ≤ 11
      ∧ (fixtureT1.entry s).pat.toNat < 2 ^ (fixtureT1.entry s).len.toNat := by
  decide +kernel

/-- Symbol 0's code in T1 is the stream bits 00. -/
theorem fixtureT1_zero : fixtureT1.entry 0#8 = ⟨0#11, 2#4⟩ := by decide +kernel

/-- Distinct symbols have distinct T1 entries. -/
theorem fixtureT1_noDuplicates : fixtureT1.NoDuplicates := by
  intro a b hab h
  refine hab (BitVec.eq_of_toNat_eq ?_)
  rw [← fixtureSymbol_entry a, ← fixtureSymbol_entry b, h]

/-- T1 is prefix-free: the four-bit header of a code fixes its length, so two codes that agree on the shorter one's
bits have one length and one pattern. -/
theorem fixtureT1_prefixFree : fixtureT1.PrefixFree := by
  intro a b hab hlen heq
  have hb0 : b ≠ 0#8 := by
    rintro rfl
    have ha := fixtureT1_header a hab
    rw [fixtureT1_zero] at hlen
    simp at hlen
    omega
  have hb := fixtureT1_header b hb0
  by_cases ha0 : a = 0#8
  · subst ha0
    rw [fixtureT1_zero] at heq
    simp at heq
    omega
  · have ha := fixtureT1_header a ha0
    have hdvd : 16 ∣ 2 ^ (fixtureT1.entry a).len.toNat := by
      have := Nat.pow_dvd_pow 2 ha.2.2.1
      simpa using this
    have h16 : (fixtureT1.entry b).pat.toNat % 16 = (fixtureT1.entry a).pat.toNat % 16 := by
      have := congrArg (· % 16) heq
      simpa [Nat.mod_mod_of_dvd _ hdvd] using this
    have hl : (fixtureT1.entry a).len.toNat = (fixtureT1.entry b).len.toNat := by
      rw [ha.1, hb.1, h16]
    rw [Nat.mod_eq_of_lt ha.2.2.2.2, hl, Nat.mod_eq_of_lt hb.2.2.2.2] at heq
    exact fixtureT1_noDuplicates a b hab
      (CodeEntry.ext (BitVec.eq_of_toNat_eq heq.symm) (BitVec.eq_of_toNat_eq hl))

/-- T1 satisfies every condition of 10_state.md R12. -/
theorem fixtureT1_admissible : fixtureT1.Admissible where
  lengths := by
    intro s
    by_cases hs : s = 0#8
    · subst hs; rw [fixtureT1_zero]; decide
    · have := fixtureT1_header s hs; omega
  extremes := ⟨⟨0#8, by rw [fixtureT1_zero]; decide⟩, ⟨255#8, by decide +kernel⟩⟩
  normalised := by
    intro s
    by_cases hs : s = 0#8
    · subst hs; rw [fixtureT1_zero]; decide
    · exact (fixtureT1_header s hs).2.2.2.2
  noDuplicates := fixtureT1_noDuplicates
  prefixFree := fixtureT1_prefixFree

end Sys2Proof
end

