-- ==== Sys2Proof/Config.lean ====
section
/-! DEFINITION. What an implementation fixes: the parameters of 00_scope.md R5, and the free values of the model. The
two OPEN parameters (`TABLE`, `BUF_BYTES`) and the byte of BUF that nothing has written are opaque: no proof can see
a value of them. -/

namespace Sys2Proof

/-- `FIRST_LOOKUP_LEN`: the accumulator length of the decoder's first lookup (00_scope.md R5). -/
def Config.firstLookupLen : Nat := 2

/-- `DEPTH_BITS`: the bits a decode consumes before it gives up (00_scope.md R5, 90_conflicts.md C1). -/
def Config.depthBits : Nat := 12

/-- `SENTINEL`: the symbol returned on Depth-Exceeded (00_scope.md R5). -/
def Config.sentinel : Sym := 0#8

/-- FREE VALUE: what a BUF byte that nothing has written since power-on holds, by address (20_memory.md R37,
93_implementation_defined.md U6: "any value"; DESIGN CHOICE, log entry 1). -/
opaque Config.powerOnByte : Nat → Byte

/-- FREE VALUE: `BUF_BYTES - 1` of the machine that comes out of reset (00_scope.md R5; DESIGN CHOICE, log entry 2). -/
opaque Config.lastBufAddress : BitVec 28

/-- The OPEN parameter `BUF_BYTES`: any number from 1 to 2^28 (00_scope.md R5, 92_eei_decisions.md D4). -/
def Config.bufBytes : Nat := Config.lastBufAddress.toNat + 1

/-- FREE VALUE: some admissible table. The argument only shows that one exists, as an opaque constant of this type
needs (10_state.md R13, 92_eei_decisions.md D15; DESIGN CHOICE, log entry 2). -/
opaque Config.someTable [Inhabited AdmissibleTable] : AdmissibleTable

/-- The OPEN parameter `TABLE`: an admissible table of which nothing else is known (10_state.md R12, R13). -/
def Config.table : Table := (@Config.someTable ⟨⟨fixtureT1, fixtureT1_admissible⟩⟩).val

end Sys2Proof
end

