-- ==== Sys2Proof/Machine/State.lean ====
section
/-! DEFINITION. The machine's state as plain data: every piece 10_state.md R10 names, and the host's pending
transactions; the reasons a step can stop; the state after power-on reset (R24). -/

namespace Sys2Proof.Machine

/-- What `STATUS.FAULT` can hold (10_state.md R20, 60_exceptions.md R95). The codes 5 to 7 never occur and cannot be
written down (93_implementation_defined.md RE3; DEDUCED, log entry 11). -/
inductive FaultCode where
  /-- 0: no fault, engine running. -/
  | noFault
  /-- 1: `ENC` with an operand of 256 or more. -/
  | symRange
  /-- 2: a bit write outside BUF. -/
  | wrBounds
  /-- 3: a bit read outside BUF. -/
  | rdBounds
  /-- 4: an illegal word written to `CMD`. -/
  | illegalCmd
deriving DecidableEq, Repr

/-- BUF as the bytes written since power-on: (address, byte) pairs, addresses strictly rising. An address that is not
listed has not been written (20_memory.md R37). -/
abbrev Memory := List Host.Cell

/-- The state of the engine, of BUF and of the host's queue (10_state.md R10, R28). -/
structure State where
  /-- `ROM[0..255]`: constant; no step changes it (10_state.md R11). -/
  rom : Table
  /-- `BUF_BYTES`: the size of BUF; no step changes it (00_scope.md R5). -/
  bufBytes : Nat
  /-- `BUF`: the bytes written since power-on (20_memory.md R30, R37). -/
  buf : Memory
  /-- `WCUR`: the write cursor (10_state.md R16). -/
  wcur : Word
  /-- `RCUR`: the read cursor (10_state.md R17). -/
  rcur : Word
  /-- `RES`: the result register (10_state.md R19). -/
  res : Word
  /-- `STATUS.FAULT` (10_state.md R20). -/
  fault : FaultCode
  /-- `STATUS.DX` (10_state.md R20). -/
  dx : Bool
  /-- The model's own: the host's transactions still to come, the next one first (10_state.md R28; DESIGN CHOICE, log
  entry 3). -/
  pending : List HostTx
  /-- The model's own: what the last completed host read returned (10_state.md R26; DESIGN CHOICE, log entry 4). -/
  response : Option Response
deriving DecidableEq, Repr

/-- Why the model stops. The four faults of the ENGINE are not here: they are taken, as next states with
`STATUS.FAULT` written (60_exceptions.md R96). -/
inductive Fault where
  /-- Raised by a host transaction `BRD` or `BWR` at an address that is not below `BUF_BYTES`: "other addresses are
  not BUF and are outside this spec" (20_memory.md R39; DESIGN CHOICE, log entry 5). Safe: the model stops where the
  spec says nothing. -/
  | outsideBuf (addr : Nat)
deriving DecidableEq, Repr

/-- What the model has no meaning for. -/
inductive Refusal where
  /-- Raised by `exec` for a command that has no meaning yet; no command is in that position. Safe. -/
  | notModelled (mnemonic : String)
deriving DecidableEq, Repr

/-- The machine after power-on reset (10_state.md R24): registers 0, engine running, BUF holding nothing known, ROM
holding the parameter `TABLE`. The host has issued nothing and has read nothing (DESIGN CHOICE, log entries 3 and 4). -/
def State.reset : State where
  rom := Config.table
  bufBytes := Config.bufBytes
  buf := []
  wcur := 0#32
  rcur := 0#32
  res := 0#32
  fault := .noFault
  dx := false
  pending := []
  response := none

end Sys2Proof.Machine
end

