-- ==== Sys2Proof/Machine/Operands.lean ====
section
/-! DEFINITION. The operand forms: the one addressing mode, a bit cursor (20_memory.md R31, R43), its bounds test (R35),
and the code bits of an entry in stream order (30_encoding.md R50). -/

namespace Sys2Proof.Machine

/-- The byte address `c >> 3` a cursor designates (20_memory.md R31). -/
def byteIndex (c : Word) : Nat := (c >>> 3).toNat

/-- The bit index `c & 7` a cursor designates (20_memory.md R31). -/
def bitIndex (c : Word) : Nat := (c &&& 7#32).toNat

/-- Bit `k` of a byte, bit 0 being the least significant (20_memory.md R31). -/
def bitOfByte (v : Byte) (k : Nat) : Bit := v.extractLsb' k 1

/-- A bit access at cursor `c` is admitted if and only if `c >> 3 < BUF_BYTES` (20_memory.md R35). -/
def State.admits (s : State) (c : Word) : Bool := decide (byteIndex c < s.bufBytes)

/-- The code of an entry: bits 0 to `len - 1` of its pattern, in stream order (30_encoding.md R50). -/
def codeBits (e : CodeEntry) : List Bit :=
  (List.range e.len.toNat).map (fun i => e.pat.extractLsb' i 1)

/-- `ENC`'s operand names a symbol: the range test `sym < 256` on the unsigned 24 bits (43_encoder.md R80). -/
def isSymbol (sym : BitVec 24) : Bool := decide (sym.toNat < 256)

end Sys2Proof.Machine
end

