-- ==== Sys2Proof/Machine/Flags.lean ====
section
/-! DEFINITION. The register `STATUS`: its fault codes, the halted test and its 32-bit view (10_state.md R20). -/

namespace Sys2Proof.Machine

/-- The 3-bit code of a fault (60_exceptions.md R95). -/
def FaultCode.code : FaultCode → BitVec 3
  | .noFault => 0#3
  | .symRange => 1#3
  | .wrBounds => 2#3
  | .rdBounds => 3#3
  | .illegalCmd => 4#3

/-- The engine is halted while `STATUS.FAULT != 0` (60_exceptions.md R97). -/
def State.halted (s : State) : Bool := s.fault.code != 0#3

/-- `STATUS` as the host reads it: `FAULT` in 2:0, `DX` in 3, bits 31:4 read as 0 (10_state.md R20). -/
def State.statusWord (s : State) : Word := 0#28 ++ BitVec.ofBool s.dx ++ s.fault.code

/-- `STATUS.DX <- d` (44_decoder.md R87). -/
def State.setDx (d : Bool) (s : State) : State := { s with dx := d }

end Sys2Proof.Machine
end

