-- ==== Sys2Proof/Machine/Ops.lean ====
section
/-! DEFINITION. The named operations over BUF and the registers, fault entry (60_exceptions.md R96) and, beside it, the
only way out of a fault, the reset of the engine (R98, 70_reset_and_hazards.md R116). -/

namespace Sys2Proof.Machine

/-- The byte written last at an address, if any was (20_memory.md R37). -/
def Memory.read : Memory → Nat → Option Byte
  | [], _ => none
  | (b, w) :: rest, a => if a = b then some w else Memory.read rest a

/-- The memory after a byte is written, in canonical form: addresses strictly rising. -/
def Memory.write : Memory → Nat → Byte → Memory
  | [], a, v => [(a, v)]
  | (b, w) :: rest, a, v =>
    if a < b then (a, v) :: (b, w) :: rest
    else if a = b then (a, v) :: rest
    else (b, w) :: Memory.write rest a v

/-- The canonical form: addresses strictly rising. An unlisted address reads as "nothing written", which no listed
byte equals, so no entry is superfluous. -/
abbrev Memory.wf (m : Memory) : Prop := m.Pairwise (fun x y => x.1 < y.1)

/-- What an address that nothing has written reads as: a free value (20_memory.md R37; DESIGN CHOICE, log entry 1). -/
def unwrittenByte (a : Nat) : Byte := Config.powerOnByte a

/-- `MemRead(addr, 1)` (00_scope.md R7). -/
def State.bufByte (s : State) (a : Nat) : Byte := (s.buf.read a).getD (unwrittenByte a)

/-- `MemWrite(addr, 1, v)` (00_scope.md R7). -/
def State.setBufByte (a : Nat) (v : Byte) (s : State) : State := { s with buf := s.buf.write a v }

/-- `WCUR <- v` (10_state.md R16). -/
def State.setWcur (v : Word) (s : State) : State := { s with wcur := v }

/-- `RCUR <- v` (10_state.md R17). -/
def State.setRcur (v : Word) (s : State) : State := { s with rcur := v }

/-- `RES <- v` (10_state.md R19). -/
def State.setRes (v : Word) (s : State) : State := { s with res := v }

/-- FAULT ENTRY, `raise Fault(code)`: record the code; nothing else is saved or changed (60_exceptions.md R96). -/
def State.raise (f : FaultCode) (s : State) : State := { s with fault := f }

/-- RESET, the only thing that clears a fault: every register to 0, BUF and ROM untouched (60_exceptions.md R98,
70_reset_and_hazards.md R116; DEDUCED, log entry 10). -/
def State.resetEngine (s : State) : State :=
  { s with wcur := 0#32, rcur := 0#32, res := 0#32, fault := .noFault, dx := false }

/-- A command, or a register write, takes effect only while the engine is running; halted, it is ignored
(60_exceptions.md R97, and R99: this test comes first). -/
def whenRunning (f : State → State) (s : State) : State := if s.halted then s else f s

/-- What a host read returned, put where the host sees it (10_state.md R26; DESIGN CHOICE, log entry 4). -/
def State.respond (r : Response) (s : State) : State := { s with response := some r }

end Sys2Proof.Machine
end

