-- ==== Sys2Proof/Machine/BitReader.lean ====
section
/-! DEFINITION. The bit-unpacker: `ReadBit` (42_bit_reader.md R75) and the command `RDBIT` (R76). -/

namespace Sys2Proof.Machine

/-- The two ways `ReadBit` ends: with a bit, or with a raised fault. -/
inductive BitRead where
  | bit (b : Bit) (s : State)
  | raised (s : State)
deriving DecidableEq, Repr

/-- The bit at the read cursor (42_bit_reader.md R75). -/
def bitAtCursor (s : State) : Bit := bitOfByte (s.bufByte (byteIndex s.rcur)) (bitIndex s.rcur)

/-- `ReadBit()`: the bit at `RCUR`, which advances by 1, or `RD_BOUNDS` with nothing read (42_bit_reader.md R75). -/
def readBit (s : State) : BitRead :=
  if s.admits s.rcur then .bit (bitAtCursor s) (s.setRcur (s.rcur + 1#32))
  else .raised (s.raise .rdBounds)

/-- `RES <- zext_32(b)` once a bit is read (42_bit_reader.md R76). -/
def bitToResult : BitRead → State
  | .bit b s => s.setRes (b.setWidth 32)
  | .raised s => s

/-- `RDBIT` (42_bit_reader.md R76). -/
def execRdbit (s : State) : Host.Outcome State Fault Refusal :=
  .next (whenRunning (fun s => bitToResult (readBit s)) s)

end Sys2Proof.Machine
end

