-- ==== Sys2Proof/Machine/CodeTable.lean ====
section
/-! DEFINITION. The two physical packings of a ROM word that 10_state.md R14 names, the two table functions
(40_code_table.md R60, R61), and the commands `LKSYM` and `LKPAT`. -/

namespace Sys2Proof

/-- The 15-bit packing of a ROM word (10_state.md R14; not architectural). -/
def CodeEntry.packPair (e : CodeEntry) : BitVec 15 := e.len ++ e.pat

/-- The entry a 15-bit ROM word stands for (10_state.md R14). -/
def CodeEntry.unpackPair (w : BitVec 15) : CodeEntry := ⟨w.extractLsb' 0 11, w.extractLsb' 11 4⟩

/-- The 12-bit packing with a marker bit above the pattern (10_state.md R14; not architectural). -/
def CodeEntry.packMarker (e : CodeEntry) : BitVec 12 := (1#12 <<< e.len) ||| e.pat.setWidth 12

/-- The entry a 12-bit ROM word stands for: its length is the index of the most significant 1, its
pattern what remains below it (10_state.md R14). -/
def CodeEntry.unpackMarker (w : BitVec 12) : CodeEntry :=
  ⟨BitVec.ofNat 11 (w.toNat - 2 ^ Nat.log2 w.toNat), BitVec.ofNat 4 (Nat.log2 w.toNat)⟩

end Sys2Proof

namespace Sys2Proof.Machine

/-- `LookupSym(s)` (40_code_table.md R60). -/
def lookupSym (t : Table) (s : Sym) : CodeEntry := t.entry s

/-- An entry matches a pattern and a length when the whole 12-bit pattern and the length are equal
(40_code_table.md R61). -/
def entryMatches (p : BitVec 12) (l : BitVec 4) (e : CodeEntry) : Bool :=
  e.len == l && e.pat.setWidth 12 == p

/-- `LookupPat(p, l)`: the first symbol from 0 up whose entry matches, if any (40_code_table.md R61; DEDUCED,
log entry 9). -/
def lookupPat (t : Table) (p : BitVec 12) (l : BitVec 4) : Option Sym :=
  (t.toList.findIdx? (entryMatches p l)).map (BitVec.ofNat 8)

/-- `LKSYM`'s layout of `RES`: `len` in 15:12, `pat` in 10:0 (40_code_table.md R62). -/
def entryWord (e : CodeEntry) : Word := 0#16 ++ e.len ++ 0#1 ++ e.pat

/-- `LKPAT`'s layout of `RES`: found in bit 8, the symbol in 7:0 (40_code_table.md R63). -/
def foundWord : Option Sym → Word
  | some s => 0#23 ++ 1#1 ++ s
  | none => 0#32

/-- `LKSYM sym` (40_code_table.md R62). -/
def execLksym (sym : Sym) (s : State) : Host.Outcome State Fault Refusal :=
  .next (whenRunning (fun s => s.setRes (entryWord (lookupSym s.rom sym))) s)

/-- `LKPAT pat, len` (40_code_table.md R63). -/
def execLkpat (pat : BitVec 12) (len : BitVec 4) (s : State) : Host.Outcome State Fault Refusal :=
  .next (whenRunning (fun s => s.setRes (foundWord (lookupPat s.rom pat len))) s)

end Sys2Proof.Machine
end

