-- ==== Sys2Proof/Machine/Decoder.lean ====
section
/-! DEFINITION. The decoder: the accumulator step (44_decoder.md R85), the command `DEC` by its pseudocode (R87), and
the state machine of R86, which a claim relates to it. -/

namespace Sys2Proof.Machine

/-- The Partial Code Accumulator, local to one `DEC` (10_state.md R18; DEDUCED, log entry 7). -/
structure Acc where
  pat : BitVec 12
  len : BitVec 4
deriving DecidableEq, Repr

/-- The accumulator of state Start (44_decoder.md R86). -/
def emptyAcc : Acc := ⟨0#12, 0#4⟩

/-- Append a bit as the next-higher bit of the accumulator's pattern (44_decoder.md R85). -/
def appendBit (acc : Acc) (b : Bit) : Acc :=
  ⟨acc.pat ||| (b.setWidth 12 <<< acc.len.toNat), acc.len + 1#4⟩

/-- Resolved: `RES <- zext_32(s); STATUS.DX <- 0` (44_decoder.md R87). -/
def resolve (sym : Sym) (s : State) : State := (s.setRes (sym.setWidth 32)).setDx false

/-- Depth-Exceeded: `RES <- 0; STATUS.DX <- 1`, no fault (44_decoder.md R87, R88). -/
def exceedDepth (s : State) : State := (s.setRes (Config.sentinel.setWidth 32)).setDx true

/-- What the accumulator resolves to: no lookup is attempted below length 2 (44_decoder.md R87). -/
def accLookup (t : Table) (acc : Acc) : Option Sym :=
  if acc.len.toNat < Config.firstLookupLen then none else lookupPat t acc.pat acc.len

/-- The loop of `DEC` (44_decoder.md R87), the first argument being how many bits may still be read: at 0 the
accumulator has length `DEPTH_BITS` and no code matched (DEDUCED, log entry 9). -/
def decodeLoop : Nat → Acc → State → State
  | 0, _, s => exceedDepth s
  | n + 1, acc, s =>
    match readBit s with
    | .raised s' => s'
    | .bit b s' =>
      match accLookup s'.rom (appendBit acc b) with
      | some sym => resolve sym s'
      | none => decodeLoop n (appendBit acc b) s'

/-- `DEC` (44_decoder.md R87). -/
def execDec (s : State) : Host.Outcome State Fault Refusal :=
  .next (whenRunning (decodeLoop Config.depthBits emptyAcc) s)

/-- The states of the decoder's state machine, and the way out by a fault (44_decoder.md R86). -/
inductive DecPhase where
  | start
  | reading
  | resolved (sym : Sym)
  | depthExceeded
  | faulted
deriving DecidableEq, Repr

/-- The state machine inside one `DEC`: its state, the accumulator and the machine (44_decoder.md R86). -/
structure DecMachine where
  phase : DecPhase
  acc : Acc
  machine : State
deriving DecidableEq, Repr

/-- Where a step out of Start or Reading leads, the accumulator step having been made (44_decoder.md R86). -/
def decPhaseAfter (t : Table) (acc : Acc) (was : DecPhase) : DecPhase :=
  match was with
  | .start => .reading
  | .reading =>
    match lookupPat t acc.pat acc.len with
    | some sym => .resolved sym
    | none => if acc.len.toNat ≤ 11 then .reading else .depthExceeded
  | p => p

/-- One transition of the state machine: an accumulator step, then the table row of R86; terminal states stay. -/
def decMachineStep (d : DecMachine) : DecMachine :=
  match d.phase with
  | .start | .reading =>
    match readBit d.machine with
    | .raised s' => ⟨.faulted, d.acc, s'⟩
    | .bit b s' => ⟨decPhaseAfter s'.rom (appendBit d.acc b) d.phase, appendBit d.acc b, s'⟩
  | _ => d

/-- `n` transitions. -/
def decMachineRun : Nat → DecMachine → DecMachine
  | 0, d => d
  | n + 1, d => decMachineRun n (decMachineStep d)

/-- What a terminal state of the state machine does (44_decoder.md R86, R87). -/
def decMachineResult (d : DecMachine) : State :=
  match d.phase with
  | .resolved sym => resolve sym d.machine
  | .depthExceeded => exceedDepth d.machine
  | _ => d.machine

end Sys2Proof.Machine
end

