-- ==== Sys2Proof/Machine/BitWriter.lean ====
section
/-! DEFINITION. The bit-packer: `WriteBit` (41_bit_writer.md R70), runs of it, and the command `WRBIT` (R71). -/

namespace Sys2Proof.Machine

/-- The byte a bit is OR-ed into: cleared when it is entered at bit index 0, else what BUF holds
(41_bit_writer.md R70). -/
def byteBefore (s : State) : Byte :=
  if bitIndex s.wcur = 0 then 0#8 else s.bufByte (byteIndex s.wcur)

/-- The byte `WriteBit(b)` leaves at the write cursor's byte address (41_bit_writer.md R70). -/
def byteWithBit (b : Bit) (s : State) : Byte := byteBefore s ||| (b.setWidth 8 <<< bitIndex s.wcur)

/-- `WriteBit(b)`: one bit at `WCUR`, or `WR_BOUNDS` with nothing written (41_bit_writer.md R70). One write of the net
effect (20_memory.md R34; DEDUCED, log entry 9). -/
def writeBit (b : Bit) (s : State) : State :=
  if s.admits s.wcur then
    (s.setBufByte (byteIndex s.wcur) (byteWithBit b s)).setWcur (s.wcur + 1#32)
  else s.raise .wrBounds

/-- `WriteBit` for each bit in order; a raised fault ends the run (43_encoder.md R80, 60_exceptions.md R96). -/
def writeBits : List Bit → State → State
  | [], s => s
  | b :: bs, s => if (writeBit b s).halted then writeBit b s else writeBits bs (writeBit b s)

/-- `WRBIT bit` (41_bit_writer.md R71). -/
def execWrbit (bit : Bit) (s : State) : Host.Outcome State Fault Refusal :=
  .next (whenRunning (writeBit bit) s)

end Sys2Proof.Machine
end

