-- ==== Sys2Proof/Machine/Encoder.lean ====
section
/-! DEFINITION. The encoder: the command `ENC` (43_encoder.md R80). -/

namespace Sys2Proof.Machine

/-- The code bits of a symbol, in stream order (30_encoding.md R50). -/
def symbolBits (t : Table) (s : Sym) : List Bit := codeBits (lookupSym t s)

/-- Encode an operand: the range test first, then the bits of the symbol's code (43_encoder.md R80). -/
def encodeSymbol (sym : BitVec 24) (s : State) : State :=
  if isSymbol sym then writeBits (symbolBits s.rom (sym.setWidth 8)) s else s.raise .symRange

/-- `ENC sym` (43_encoder.md R80). -/
def execEnc (sym : BitVec 24) (s : State) : Host.Outcome State Fault Refusal :=
  .next (whenRunning (encodeSymbol sym) s)

end Sys2Proof.Machine
end

