-- ==== Sys2Proof/Machine/Dispatch.lean ====
section
/-! DEFINITION. One arm per command (30_encoding.md R47). -/

namespace Sys2Proof.Machine

def exec (i : Instr) (s : State) : Host.Outcome State Fault Refusal :=
  match i with
  | .wrbit bit => Sys2Proof.Machine.execWrbit bit s
  | .rdbit => Sys2Proof.Machine.execRdbit s
  | .enc sym => Sys2Proof.Machine.execEnc sym s
  | .dec => Sys2Proof.Machine.execDec s
  | .lksym sym => Sys2Proof.Machine.execLksym sym s
  | .lkpat pat len => Sys2Proof.Machine.execLkpat pat len s

end Sys2Proof.Machine
end

