-- ==== Sys2Proof/Machine/HostPort.lean ====
section
/-! DEFINITION. The registers' offsets (10_state.md R25) and the host's transactions (R26, R27, R28; 20_memory.md R39;
70_reset_and_hazards.md R116): reading and writing registers, executing a command word, reading and writing BUF, reset. -/

namespace Sys2Proof

/-- The word offset of a register (10_state.md R25). -/
def HostReg.offset : HostReg → Nat
  | .cmd => 0x00
  | .wcur => 0x04
  | .rcur => 0x08
  | .res => 0x0C
  | .status => 0x10

/-- The register at an offset; any other offset has no meaning (10_state.md R25, 93_implementation_defined.md RE5). -/
def HostReg.ofOffset : Nat → Option HostReg
  | 0x00 => some .cmd
  | 0x04 => some .wcur
  | 0x08 => some .rcur
  | 0x0C => some .res
  | 0x10 => some .status
  | _ => none

end Sys2Proof

namespace Sys2Proof.Machine

/-- The value a register read returns: the register, and 0 for `CMD` (10_state.md R26). -/
def hostRead : HostReg → State → Word
  | .cmd, _ => 0#32
  | .wcur, s => s.wcur
  | .rcur, s => s.rcur
  | .res, s => s.res
  | .status, s => s.statusWord

/-- Execute a word written to `CMD`: the command it decodes to, or `ILLEGAL_CMD` (30_encoding.md R45, R49). -/
def execWord (w : Word) (s : State) : Host.Outcome State Fault Refusal :=
  match decode w with
  | .ok i => exec i s
  | .error _ => .next (whenRunning (fun s => s.raise .illegalCmd) s)

/-- A register write: cursors replaced, `CMD` executed, `RES` and `STATUS` ignored; all ignored while halted
(10_state.md R27). -/
def hostWrite : HostReg → Word → State → Host.Outcome State Fault Refusal
  | .cmd, w, s => execWord w s
  | .wcur, v, s => .next (whenRunning (fun s => s.setWcur v) s)
  | .rcur, v, s => .next (whenRunning (fun s => s.setRcur v) s)
  | .res, _, s => .next s
  | .status, _, s => .next s

/-- `BRD addr`: allowed whether or not the engine is halted (20_memory.md R39). -/
def hostReadByte (a : Nat) (s : State) : Host.Outcome State Fault Refusal :=
  if a < s.bufBytes then .next (s.respond (.byte (s.bufByte a))) else .fault (.outsideBuf a)

/-- `BWR addr, v`: allowed whether or not the engine is halted (20_memory.md R39). -/
def hostWriteByte (a : Nat) (v : Byte) (s : State) : Host.Outcome State Fault Refusal :=
  if a < s.bufBytes then .next (s.setBufByte a v) else .fault (.outsideBuf a)

/-- One host transaction (10_state.md R28). -/
def transact : HostTx → State → Host.Outcome State Fault Refusal
  | .hrd reg, s => .next (s.respond (.word (hostRead reg s)))
  | .hwr reg v, s => hostWrite reg v s
  | .brd a, s => hostReadByte a s
  | .bwr a v, s => hostWriteByte a v s
  | .reset, s => .next s.resetEngine

/-- The state once the host's next transaction has been taken from its queue (DESIGN CHOICE, log entry 3). -/
def State.afterTake (rest : List HostTx) (s : State) : State := { s with pending := rest }

/-- Perform the host's next transaction; with none pending the engine takes no step of its own (10_state.md R28). -/
def serveHost (s : State) : Host.Outcome State Fault Refusal :=
  match s.pending with
  | [] => .next s
  | t :: rest => transact t (s.afterTake rest)

end Sys2Proof.Machine
end

