-- ==== Sys2Proof/Machine/Step.lean ====
section
/-! DEFINITION. One step of the whole system is the host's next transaction (10_state.md R28); and the placing of a
command word as that transaction. -/

namespace Sys2Proof.Machine

/-- One step: the first of the host's pending transactions (10_state.md R28; DESIGN CHOICE, log entry 3). -/
def step (s : State) : Host.Outcome State Fault Refusal := serveHost s

/-- The state whose next transaction is `HWR CMD, w`: commands are not fetched from memory but written to `CMD` by the
host (30_encoding.md R45), so the word goes to the front of the host's queue (DESIGN CHOICE, log entry 3). -/
def State.withFetchWord (s : State) (nbits w : Nat) : State :=
  { s with pending := .hwr .cmd (BitVec.ofNat 32 (w % 2 ^ nbits)) :: s.pending }

end Sys2Proof.Machine
end

