-- ==== Sys2Proof/Safety.lean ====
section
/-! DEFINITION. What counts as a safe state and run, in the terms the claims use: the invariant, the bits of BUF by bit
address, clean ground for a stream, where a code lies, and runs of commands. -/

namespace Sys2Proof.Machine

/-- The engine is running: `STATUS.FAULT = 0` (60_exceptions.md R97). -/
def State.Running (s : State) : Prop := s.fault = .noFault

/-- What every state of the machine satisfies: BUF in canonical form and inside its bounds, `BUF_BYTES` from 1 to 2^28
(00_scope.md R5), an admissible table (10_state.md R12; DEDUCED, log entry 6). -/
structure State.Inv (s : State) : Prop where
  canonical : s.buf.wf
  inside : ∀ c ∈ s.buf, c.1 < s.bufBytes
  sizePos : 1 ≤ s.bufBytes
  sizeMax : s.bufBytes ≤ 2 ^ 28
  table : s.rom.Admissible

/-- A safe state: the invariant holds and no fault is recorded. A halted state is never a success (60_exceptions.md
R97). -/
def State.Safe (s : State) : Prop := s.Inv ∧ s.Running

/-- The bit at a bit address: bit `a mod 8` of BUF byte `a / 8` (20_memory.md R31). -/
def State.bit (s : State) (a : Nat) : Bit := bitOfByte (s.bufByte (a / 8)) (a % 8)

/-- Ground on which a stream may start: a byte boundary, or a byte whose bits from there up are 0
(70_reset_and_hazards.md R119). -/
def State.FreshAt (s : State) (a : Nat) : Prop :=
  a % 8 = 0 ∨ ∀ k, a % 8 ≤ k → k < 8 → bitOfByte (s.bufByte (a / 8)) k = 0#1

/-- The length of a symbol's code. -/
def State.codeLen (s : State) (sym : Sym) : Nat := (s.rom.entry sym).len.toNat

/-- Bit `i` of a symbol's code in stream order (30_encoding.md R50). -/
def State.codeBit (s : State) (sym : Sym) (i : Nat) : Bit := (s.rom.entry sym).pat.extractLsb' i 1

/-- The bits of BUF at bit address `a` begin with the code of a symbol (44_decoder.md R89). -/
def State.CodeAt (s : State) (a : Nat) (sym : Sym) : Prop :=
  ∀ i, i < s.codeLen sym → s.bit (a + i) = s.codeBit sym i

/-- The total length of the codes of a sequence of symbols. -/
def State.streamLen (s : State) (syms : List Sym) : Nat := (syms.map s.codeLen).sum

/-- Commands executed in order, up to the first that does not answer a next state. -/
def runCommands : List Instr → State → Host.Outcome State Fault Refusal
  | [], s => .next s
  | i :: is, s =>
    match exec i s with
    | .next t => runCommands is t
    | .fault r => .fault r
    | .refused r => .refused r

/-- `ENC` of a symbol: its 24-bit operand is the symbol itself (30_encoding.md R48). -/
def encOf (sym : Sym) : Instr := .enc (sym.setWidth 24)

end Sys2Proof.Machine
end

