-- ==== Sys2Proof/Certificates/Slice0/Obligations.lean ====
section
/-! DEFINITION. The statements for the provers, one `def Obligations.<Name> : Prop` each. They are about every state,
table and operand; none is about a program. -/

open Sys2Proof Sys2Proof.Machine

/-! ### Encoding (30_encoding.md) -/

/-- Decoding an encoded well-formed command gives the command back, for every operand value (30_encoding.md R46, R47,
R48). -/
def Obligations.DecodeOfEncodeIsTheCommand : Prop :=
  ∀ i : Instr, i.wf = true → decode (encode i) = .ok i

/-- A word that decodes to a command is that command's encoding: each command has one word (30_encoding.md R47,
R49). -/
def Obligations.EncodeOfDecodeIsTheWord : Prop :=
  ∀ (w : Word) (i : Instr), decode w = .ok i → encode i = w

/-- The opcode map (30_encoding.md R47): "A word `w` selects the row for which `w & mask = match`; the six rows are
mutually exclusive because their opcodes differ; a word that selects no row is illegal". -/
def Obligations.OpcodeMapSelectsTheCommands : Prop :=
  ∀ w : Word,
    (w &&& 0xFFFFFFFE#32 = 0x01000000#32 → decode w = .ok (.wrbit (w.extractLsb' 0 1)))
    ∧ (w &&& 0xFFFFFFFF#32 = 0x02000000#32 → decode w = .ok .rdbit)
    ∧ (w &&& 0xFF000000#32 = 0x03000000#32 → decode w = .ok (.enc (w.extractLsb' 0 24)))
    ∧ (w &&& 0xFFFFFFFF#32 = 0x04000000#32 → decode w = .ok .dec)
    ∧ (w &&& 0xFFFFFF00#32 = 0x05000000#32 → decode w = .ok (.lksym (w.extractLsb' 0 8)))
    ∧ (w &&& 0xFFFF0000#32 = 0x06000000#32
        → decode w = .ok (.lkpat (w.extractLsb' 0 12) (w.extractLsb' 12 4)))
    ∧ ((∃ e, decode w = .error e) ↔
        w &&& 0xFFFFFFFE#32 ≠ 0x01000000#32 ∧ w &&& 0xFFFFFFFF#32 ≠ 0x02000000#32
        ∧ w &&& 0xFF000000#32 ≠ 0x03000000#32 ∧ w &&& 0xFFFFFFFF#32 ≠ 0x04000000#32
        ∧ w &&& 0xFFFFFF00#32 ≠ 0x05000000#32 ∧ w &&& 0xFFFF0000#32 ≠ 0x06000000#32)
    ∧ (∀ r ∈ opcodeTable, ∀ r' ∈ opcodeTable, r.selects w = true → r'.selects w = true → r = r')

/-- Illegal words (30_encoding.md R49): exactly the words whose opcode is not 0x01 to 0x06 or whose reserved field is
not zero; executing one raises `ILLEGAL_CMD` and changes nothing else. -/
def Obligations.IllegalWordsRaiseIllegalCmd : Prop :=
  ∀ w : Word,
    ((∃ e, decode w = .error e) ↔
      w.extractLsb' 24 8 ∉ [0x01#8, 0x02#8, 0x03#8, 0x04#8, 0x05#8, 0x06#8]
      ∨ (w.extractLsb' 24 8 = 0x01#8 ∧ w.extractLsb' 1 23 ≠ 0#23)
      ∨ ((w.extractLsb' 24 8 = 0x02#8 ∨ w.extractLsb' 24 8 = 0x04#8) ∧ w.extractLsb' 0 24 ≠ 0#24)
      ∨ (w.extractLsb' 24 8 = 0x05#8 ∧ w.extractLsb' 8 16 ≠ 0#16)
      ∨ (w.extractLsb' 24 8 = 0x06#8 ∧ w.extractLsb' 16 8 ≠ 0#8))
    ∧ (∀ s : State, (∃ e, decode w = .error e) → s.Running →
        transact (.hwr .cmd w) s = .next { s with fault := .illegalCmd })

/-- Some words written out from the format table decode to the commands they stand for (30_encoding.md R46, R47;
95_test_vectors.md V1 to V8). -/
def Obligations.WrittenOutWordsDecode : Prop :=
  decode 0x01000000#32 = .ok (.wrbit 0#1) ∧ decode 0x01000001#32 = .ok (.wrbit 1#1)
  ∧ decode 0x02000000#32 = .ok .rdbit
  ∧ decode 0x03000100#32 = .ok (.enc 256#24) ∧ decode 0x03FFFFFF#32 = .ok (.enc 0xFFFFFF#24)
  ∧ decode 0x04000000#32 = .ok .dec
  ∧ decode 0x05000041#32 = .ok (.lksym 65#8)
  ∧ decode 0x0600A205#32 = .ok (.lkpat 0x205#12 10#4)

/-- The assembler lines stand for their commands and register writes, with every literal in its range (30_encoding.md
R52, R53). -/
def Obligations.AssemblerLinesStandForTheirCommands : Prop :=
  (∀ bit, (AsmLine.wrbit bit).wf = true →
    ∃ w, (AsmLine.wrbit bit).transaction = .hwr .cmd w ∧ decode w = .ok (.wrbit (BitVec.ofNat 1 bit)))
  ∧ (∃ w, AsmLine.rdbit.transaction = .hwr .cmd w ∧ decode w = .ok .rdbit)
  ∧ (∀ sym, (AsmLine.enc sym).wf = true →
    ∃ w, (AsmLine.enc sym).transaction = .hwr .cmd w ∧ decode w = .ok (.enc (BitVec.ofInt 24 sym)))
  ∧ (∃ w, AsmLine.dec.transaction = .hwr .cmd w ∧ decode w = .ok .dec)
  ∧ (∀ sym, (AsmLine.lksym sym).wf = true →
    ∃ w, (AsmLine.lksym sym).transaction = .hwr .cmd w ∧ decode w = .ok (.lksym (BitVec.ofNat 8 sym)))
  ∧ (∀ pat len, (AsmLine.lkpat pat len).wf = true →
    ∃ w, (AsmLine.lkpat pat len).transaction = .hwr .cmd w
      ∧ decode w = .ok (.lkpat (BitVec.ofNat 12 pat) (BitVec.ofNat 4 len)))
  ∧ (∀ v, (AsmLine.setw v).transaction = .hwr .wcur v ∧ (AsmLine.setr v).transaction = .hwr .rcur v)

/-- The register map: the offsets 0x00, 0x04, 0x08, 0x0C and 0x10 name `CMD`, `WCUR`, `RCUR`, `RES` and `STATUS`, and
no other offset names a register (10_state.md R25). -/
def Obligations.OffsetsNameTheFiveRegisters : Prop :=
  HostReg.ofOffset 0x00 = some .cmd ∧ HostReg.ofOffset 0x04 = some .wcur ∧ HostReg.ofOffset 0x08 = some .rcur
  ∧ HostReg.ofOffset 0x0C = some .res ∧ HostReg.ofOffset 0x10 = some .status
  ∧ (∀ offset, offset ∉ [0x00, 0x04, 0x08, 0x0C, 0x10] → HostReg.ofOffset offset = none)
  ∧ HostReg.offset .cmd = 0x00 ∧ HostReg.offset .wcur = 0x04 ∧ HostReg.offset .rcur = 0x08
  ∧ HostReg.offset .res = 0x0C ∧ HostReg.offset .status = 0x10

/-! ### Steps and the host's transactions (10_state.md R26 to R28, 20_memory.md R39) -/

/-- A step performs the first pending transaction, on the state whose queue has lost it and nothing else: "A step of
the whole system is exactly one of" them (10_state.md R28). The queue is the model's own (log entry 3). -/
def Obligations.StepPerformsTheNextTransaction : Prop :=
  ∀ (s : State) (tx : HostTx) (rest : List HostTx),
    s.pending = tx :: rest → step s = transact tx { s with pending := rest }

/-- A step whose transaction writes a word to `CMD` is the execution of the command the word decodes to, on the state
whose queue has lost that transaction and nothing else (10_state.md R27, R28; 30_encoding.md R45). The queue is the
model's own (log entry 3). -/
def Obligations.StepRunsTheDecodedCommand : Prop :=
  ∀ (s : State) (w : Word) (rest : List HostTx) (i : Instr),
    s.pending = .hwr .cmd w :: rest → decode w = .ok i → step s = exec i { s with pending := rest }

/-- A command word placed for the next step is written to `CMD` by that step, whatever was pending before, which is
still pending after (30_encoding.md R45; log entry 3). -/
def Obligations.PlacedWordIsTheNextCommand : Prop :=
  ∀ (s : State) (w : Word), step (s.withFetchWord 32 w.toNat) = transact (.hwr .cmd w) s

/-- No transaction touches the queue of transactions still to come, and only `HRD` and `BRD` change what the last host
read returned. Both fields are the model's own (log entries 3 and 4). -/
def Obligations.TransactionsLeaveTheHostsQueue : Prop :=
  ∀ (tx : HostTx) (s t : State), transact tx s = .next t →
    t.pending = s.pending
    ∧ ((∀ reg, tx ≠ .hrd reg) → (∀ a, tx ≠ .brd a) → t.response = s.response)

/-- With no transaction pending a step changes nothing: "The engine never takes a step of its own" (10_state.md R28).
That such a step exists at all is the model's choice (log entry 3). -/
def Obligations.IdleEngineStaysAsItIs : Prop :=
  ∀ s : State, s.pending = [] → step s = .next s

/-- A register read returns the register's value, 0 for `CMD`, and changes nothing, halted or not (10_state.md R26).
That what it returns stands in `response` is the model's choice (log entry 4). -/
def Obligations.HostReadsReturnTheRegister : Prop :=
  ∀ (s : State) (reg : HostReg),
    transact (.hrd reg) s = .next { s with
      response := some (.word (match reg with
        | .cmd => 0#32
        | .wcur => s.wcur
        | .rcur => s.rcur
        | .res => s.res
        | .status => s.statusWord)) }

/-- Register writes (10_state.md R27): running, a cursor is replaced, `CMD` executes the word as one command, `RES`
and `STATUS` ignore it; halted, every write is ignored. -/
def Obligations.HostWritesReplaceCursorsAndRunCommands : Prop :=
  ∀ (s : State) (v : Word),
    (s.Running →
      transact (.hwr .wcur v) s = .next { s with wcur := v }
      ∧ transact (.hwr .rcur v) s = .next { s with rcur := v }
      ∧ (∀ i, decode v = .ok i → transact (.hwr .cmd v) s = exec i s)
      ∧ (∀ e, decode v = .error e → transact (.hwr .cmd v) s = .next { s with fault := .illegalCmd })
      ∧ transact (.hwr .res v) s = .next s
      ∧ transact (.hwr .status v) s = .next s)
    ∧ (¬ s.Running → ∀ reg, transact (.hwr reg v) s = .next s)

/-- Host access to BUF (20_memory.md R39): `BRD` returns the byte and changes nothing, `BWR` writes the byte and
changes no other, for every address of BUF, halted or not. That what `BRD` returns stands in `response` is the model's
choice (log entry 4). -/
def Obligations.HostReachesEveryBufByte : Prop :=
  ∀ (s : State) (a : Nat), a < s.bufBytes →
    transact (.brd a) s = .next { s with response := some (.byte (s.bufByte a)) }
    ∧ (∀ v, ∃ t, transact (.bwr a v) s = .next t ∧ t.bufByte a = v
        ∧ (∀ b, b ≠ a → t.buf.read b = s.buf.read b) ∧ { t with buf := s.buf } = s)

/-- The model stops only when the host accesses an address that is not BUF, and never refuses (20_memory.md R39:
"other addresses are not BUF and are outside this spec"). The stop and the queue the transaction is taken from are the
model's choices (log entries 5 and 3). -/
def Obligations.OnlyHostAccessOutsideBufStops : Prop :=
  ∀ s : State,
    (∀ f, step s = .fault f ↔ ∃ a rest, s.bufBytes ≤ a ∧ f = .outsideBuf a
      ∧ (s.pending = .brd a :: rest ∨ ∃ v, s.pending = .bwr a v :: rest))
    ∧ (∀ r, step s ≠ .refused r)

/-! ### Reset (10_state.md R24, 70_reset_and_hazards.md R116) -/

/-- `RESET` puts every register to 0, which clears a recorded fault, and touches neither BUF nor ROM
(70_reset_and_hazards.md R116); after it the engine accepts commands at once. -/
def Obligations.ResetClearsTheRegisters : Prop :=
  ∀ s : State, ∃ t, transact .reset s = .next t
    ∧ t.wcur = 0#32 ∧ t.rcur = 0#32 ∧ t.res = 0#32 ∧ t.statusWord = 0#32 ∧ t.Running
    ∧ (∀ a, t.buf.read a = s.buf.read a) ∧ t.rom = s.rom ∧ t.bufBytes = s.bufBytes

/-- The values after reset (10_state.md R24): registers 0, engine running, `DX` 0, ROM holding `TABLE`, no byte of BUF
known at power-on, and BUF and ROM unchanged by a later reset. -/
def Obligations.ResetLeavesTheSpecsValues : Prop :=
  State.reset.wcur = 0#32 ∧ State.reset.rcur = 0#32 ∧ State.reset.res = 0#32
  ∧ State.reset.statusWord = 0#32 ∧ State.reset.fault = .noFault ∧ State.reset.Running ∧ State.reset.dx = false
  ∧ State.reset.rom = Config.table ∧ (∀ a, State.reset.buf.read a = none)
  ∧ (∀ s : State, ∃ t, transact .reset s = .next t
      ∧ t.wcur = 0#32 ∧ t.rcur = 0#32 ∧ t.res = 0#32 ∧ t.statusWord = 0#32
      ∧ (∀ a, t.buf.read a = s.buf.read a) ∧ t.rom = s.rom)

/-! ### Faults and the halted engine (60_exceptions.md) -/

/-- The halted state (60_exceptions.md R97): every register write is ignored and every command too, so that
`STATUS.FAULT` keeps the first fault's code; register reads and BUF accesses work as usual. Where a read's value
stands is the model's choice (log entry 4). -/
def Obligations.HaltedEngineIgnoresTheHost : Prop :=
  ∀ s : State, ¬ s.Running →
    (∀ reg v, transact (.hwr reg v) s = .next s)
    ∧ (∀ i, exec i s = .next s)
    ∧ (∀ reg, transact (.hrd reg) s = .next { s with response := some (.word (hostRead reg s)) })
    ∧ (∀ a, a < s.bufBytes →
        transact (.brd a) s = .next { s with response := some (.byte (s.bufByte a)) })
    ∧ (∀ a v, a < s.bufBytes → transact (.bwr a v) s = .next { s with buf := s.buf.write a v })

/-- No return from a fault (60_exceptions.md R98): no command and no register write clears `STATUS.FAULT`, and no
other transaction but reset does; reset puts the registers to 0, so that the cursors are lost, and BUF keeps what it
holds. -/
def Obligations.OnlyResetClearsAFault : Prop :=
  ∀ (s t : State) (tx : HostTx), ¬ s.Running → transact tx s = .next t →
    (tx ≠ .reset → t.fault = s.fault)
    ∧ (tx = .reset → t.Running ∧ t.wcur = 0#32 ∧ t.rcur = 0#32 ∧ t.res = 0#32 ∧ t.statusWord = 0#32
        ∧ ∀ a, t.buf.read a = s.buf.read a)

/-- The order in which a command's faults are tested (60_exceptions.md R99): the halted test before anything, the
illegal word before any execution, `ENC`'s range test before any bit access, wherever the cursor is. -/
def Obligations.FaultTestsComeInOrder : Prop :=
  ∀ (s : State) (w : Word),
    (¬ s.Running → execWord w s = .next s)
    ∧ (s.Running → (∃ e, decode w = .error e) → execWord w s = .next { s with fault := .illegalCmd })
    ∧ (s.Running → ∀ sym : BitVec 24, 256 ≤ sym.toNat → decode w = .ok (.enc sym) →
        execWord w s = .next { s with fault := .symRange })

/-- The register `STATUS` (10_state.md R20, 60_exceptions.md R95): `FAULT` in bits 2:0 with the codes 0 to 4 and no
other, `DX` in bit 3, bits 31:4 read as 0; the engine is running exactly when `FAULT` is 0. -/
def Obligations.StatusFieldsReadAsTheSpecSays : Prop :=
  ∀ s : State,
    s.statusWord.extractLsb' 0 3 = s.fault.code ∧ s.statusWord.getLsbD 3 = s.dx
    ∧ s.statusWord.extractLsb' 4 28 = 0#28 ∧ s.fault.code.toNat ≤ 4
    ∧ (s.Running ↔ s.statusWord.extractLsb' 0 3 = 0#3)
    ∧ ((s.raise .symRange).statusWord.extractLsb' 0 3 = 1#3)
    ∧ ((s.raise .wrBounds).statusWord.extractLsb' 0 3 = 2#3)
    ∧ ((s.raise .rdBounds).statusWord.extractLsb' 0 3 = 3#3)
    ∧ ((s.raise .illegalCmd).statusWord.extractLsb' 0 3 = 4#3)

/-! ### The bit writer and the bit reader (41_bit_writer.md, 42_bit_reader.md) -/

/-- `WRBIT` (41_bit_writer.md R70, R71): its words, any other word of its opcode raising `ILLEGAL_CMD`; on an
admitted cursor the byte at the cursor, cleared first when it is entered at bit index 0, has the bit OR-ed in, no
other byte changes and the cursor advances by 1; on a cursor that is not admitted `WR_BOUNDS` and nothing else;
ignored while halted. -/
def Obligations.WrbitWritesOneBit : Prop :=
  (∀ w : Word, w.extractLsb' 24 8 = 0x01#8 →
    (w.extractLsb' 1 23 = 0#23 → decode w = .ok (.wrbit (w.extractLsb' 0 1)))
    ∧ (w.extractLsb' 1 23 ≠ 0#23 →
        ∀ s : State, s.Running → execWord w s = .next { s with fault := .illegalCmd }))
  ∧ (∀ (s : State) (b : Bit),
    (s.Running → byteIndex s.wcur < s.bufBytes →
      ∃ t, exec (.wrbit b) s = .next t ∧ t.wcur = s.wcur + 1#32
        ∧ t.bufByte (byteIndex s.wcur)
            = (if bitIndex s.wcur = 0 then 0#8 else s.bufByte (byteIndex s.wcur))
                ||| (b.setWidth 8 <<< bitIndex s.wcur)
        ∧ (∀ a, a ≠ byteIndex s.wcur → t.buf.read a = s.buf.read a)
        ∧ { t with wcur := s.wcur, buf := s.buf } = s)
    ∧ (s.Running → s.bufBytes ≤ byteIndex s.wcur →
        exec (.wrbit b) s = .next { s with fault := .wrBounds })
    ∧ (¬ s.Running → exec (.wrbit b) s = .next s))

/-- `RDBIT` (42_bit_reader.md R75, R76): its word, any other of its opcode raising `ILLEGAL_CMD`; on an admitted
cursor `RES` is the bit at the cursor, zero-extended, the cursor advances by 1 and nothing else changes; on a cursor
that is not admitted `RD_BOUNDS` and nothing else; ignored while halted. -/
def Obligations.RdbitReadsOneBit : Prop :=
  (∀ w : Word, w.extractLsb' 24 8 = 0x02#8 →
    (w.extractLsb' 0 24 = 0#24 → decode w = .ok .rdbit)
    ∧ (w.extractLsb' 0 24 ≠ 0#24 →
        ∀ s : State, s.Running → execWord w s = .next { s with fault := .illegalCmd }))
  ∧ (∀ s : State,
    (s.Running → byteIndex s.rcur < s.bufBytes →
      exec .rdbit s = .next { s with
        rcur := s.rcur + 1#32
        res := (s.bufByte (byteIndex s.rcur) >>> bitIndex s.rcur &&& 1#8).setWidth 32 })
    ∧ (s.Running → s.bufBytes ≤ byteIndex s.rcur → exec .rdbit s = .next { s with fault := .rdBounds })
    ∧ (¬ s.Running → exec .rdbit s = .next s))

/-- Sequences of bit writes (41_bit_writer.md R72, marked there "[derived: from rule R70]"): the bits `bs` written by
successive `WRBIT` from cursor `c` with room in BUF. From a byte boundary, or in a byte the run enters at bit index 0,
every bit lands as it is and the rest of the run's last byte is 0; in a first byte entered elsewhere a bit is OR-ed
with what was there and bits outside the run are kept; no byte outside the run changes. -/
def Obligations.BitRunsLandAtTheirAddresses : Prop :=
  ∀ (s : State) (bs : List Bit), s.Inv → s.Running → s.wcur.toNat + bs.length ≤ 8 * s.bufBytes →
    ∃ t, runCommands (bs.map Instr.wrbit) s = .next t
      ∧ t.wcur.toNat = s.wcur.toNat + bs.length
      ∧ (∀ m (hm : m < bs.length),
          (s.wcur.toNat % 8 = 0 ∨ s.wcur.toNat / 8 < (s.wcur.toNat + m) / 8 →
            t.bit (s.wcur.toNat + m) = bs[m])
          ∧ (s.wcur.toNat % 8 ≠ 0 → (s.wcur.toNat + m) / 8 = s.wcur.toNat / 8 →
            t.bit (s.wcur.toNat + m) = s.bit (s.wcur.toNat + m) ||| bs[m]))
      ∧ (∀ a, bs ≠ [] → s.wcur.toNat + bs.length ≤ a → a / 8 = (s.wcur.toNat + bs.length - 1) / 8 →
          (s.wcur.toNat % 8 = 0 ∨ s.wcur.toNat / 8 < a / 8 → t.bit a = 0#1)
          ∧ (s.wcur.toNat % 8 ≠ 0 → a / 8 = s.wcur.toNat / 8 → t.bit a = s.bit a))
      ∧ (∀ a, a < s.wcur.toNat → s.wcur.toNat % 8 ≠ 0 → a / 8 = s.wcur.toNat / 8 → t.bit a = s.bit a)
      ∧ (∀ a, a < s.wcur.toNat / 8 ∨ s.wcur.toNat + bs.length ≤ 8 * a → t.buf.read a = s.buf.read a)
      ∧ { t with wcur := s.wcur, buf := s.buf } = s

/-- Read after write (42_bit_reader.md R77, marked there "[derived: ...]"): bits written by `WRBIT` on fresh ground
come back in order by as many `RDBIT` from the same address. -/
def Obligations.BitsReadBackAsWritten : Prop :=
  ∀ (s : State) (bs : List Bit), s.Inv → s.Running → s.FreshAt s.wcur.toNat →
    s.wcur.toNat + bs.length ≤ 8 * s.bufBytes →
    ∃ t, runCommands (bs.map Instr.wrbit) s = .next t
      ∧ ∀ k (hk : k < bs.length),
        ∃ u, runCommands (List.replicate (k + 1) .rdbit) { t with rcur := s.wcur } = .next u
          ∧ u.Running ∧ u.res = (bs[k]).setWidth 32 ∧ u.rcur.toNat = s.wcur.toNat + k + 1

/-- Coherence (20_memory.md R41): a byte the host writes with `BWR` is seen by the very next `RDBIT`, and the byte
`WRBIT` leaves, at whichever bit index it writes, is seen by the very next `BRD`. That the two transactions stand in
`pending` and that what `BRD` returns stands in `response` are the model's choices (log entries 3 and 4). -/
def Obligations.WrittenBytesAreSeenAtOnce : Prop :=
  ∀ (s : State) (rest : List HostTx), s.Running →
    (∀ v, byteIndex s.rcur < s.bufBytes →
      s.pending = .bwr (byteIndex s.rcur) v :: AsmLine.rdbit.transaction :: rest →
      ∃ t, Sys2Proof.core.run 2 s = .next t
        ∧ t.res = (bitOfByte v (bitIndex s.rcur)).setWidth 32 ∧ t.pending = rest)
    ∧ (∀ b : Bit, byteIndex s.wcur < s.bufBytes →
      s.pending = (AsmLine.wrbit b.toNat).transaction :: .brd (byteIndex s.wcur) :: rest →
      ∃ t, Sys2Proof.core.run 2 s = .next t
        ∧ t.response = some (.byte
            ((if bitIndex s.wcur = 0 then 0#8 else s.bufByte (byteIndex s.wcur))
              ||| (b.setWidth 8 <<< bitIndex s.wcur)))
        ∧ t.pending = rest)

/-! ### The code table (40_code_table.md) -/

/-- `LKSYM` (40_code_table.md R62, with the total function `LookupSym` of R60): its words, any other word of its
opcode raising `ILLEGAL_CMD`; `RES` holds the symbol's length in 15:12, its pattern in 10:0 and 0 elsewhere, nothing
else changes; every symbol is legal, and in an admissible table the entry has a length from 2 to 11 and a pattern
below 2 to the length; ignored while halted. -/
def Obligations.LksymReturnsTheEntry : Prop :=
  (∀ w : Word, w.extractLsb' 24 8 = 0x05#8 →
    (w.extractLsb' 8 16 = 0#16 → decode w = .ok (.lksym (w.extractLsb' 0 8)))
    ∧ (w.extractLsb' 8 16 ≠ 0#16 →
        ∀ s : State, s.Running → execWord w s = .next { s with fault := .illegalCmd }))
  ∧ (∀ (s : State) (sym : Sym),
    (s.Running → ∃ v : Word, exec (.lksym sym) s = .next { s with res := v }
      ∧ v.extractLsb' 16 16 = 0#16 ∧ v.extractLsb' 12 4 = (s.rom.entry sym).len
      ∧ v.getLsbD 11 = false ∧ v.extractLsb' 0 11 = (s.rom.entry sym).pat)
    ∧ (¬ s.Running → exec (.lksym sym) s = .next s)
    ∧ (s.rom.Admissible → 2 ≤ (s.rom.entry sym).len.toNat ∧ (s.rom.entry sym).len.toNat ≤ 11
        ∧ (s.rom.entry sym).pat.toNat < 2 ^ (s.rom.entry sym).len.toNat))

/-- `LKPAT` (40_code_table.md R63): its words, any other word of its opcode raising `ILLEGAL_CMD`; when a symbol has
exactly this pattern and length `RES` is 0x100 plus the symbol, when none has it `RES` is 0, nothing else changes;
lengths outside 2 to 11 and patterns with a bit at or above the length are never found; ignored while halted. -/
def Obligations.LkpatSearchesTheTable : Prop :=
  (∀ w : Word, w.extractLsb' 24 8 = 0x06#8 →
    (w.extractLsb' 16 8 = 0#8 → decode w = .ok (.lkpat (w.extractLsb' 0 12) (w.extractLsb' 12 4)))
    ∧ (w.extractLsb' 16 8 ≠ 0#8 →
        ∀ s : State, s.Running → execWord w s = .next { s with fault := .illegalCmd }))
  ∧ (∀ (s : State) (pat : BitVec 12) (len : BitVec 4), s.rom.Admissible →
    (s.Running →
      (∀ sym, (s.rom.entry sym).len = len → (s.rom.entry sym).pat.setWidth 12 = pat →
        exec (.lkpat pat len) s = .next { s with res := 0x100#32 + sym.setWidth 32 })
      ∧ ((∀ sym, (s.rom.entry sym).len = len → (s.rom.entry sym).pat.setWidth 12 ≠ pat) →
        exec (.lkpat pat len) s = .next { s with res := 0#32 })
      ∧ (len.toNat < 2 ∨ 11 < len.toNat ∨ 2 ^ len.toNat ≤ pat.toNat →
        exec (.lkpat pat len) s = .next { s with res := 0#32 }))
    ∧ (¬ s.Running → exec (.lkpat pat len) s = .next s))

/-- What a lookup finds (40_code_table.md R64, each clause marked there "[derived: ...]"), for every admissible table:
(a) every entry is found; (b) what is found has the pattern and the length; (c) lengths outside 2 to 11 are never
found; (d) in fixture T1 the pattern 0x002 is symbol 1 at length 4 and nothing at lengths 2 and 3. -/
def Obligations.LookupFindsExactlyTheEntries : Prop :=
  (∀ t : Table, t.Admissible →
    (∀ s : Sym, lookupPat t ((t.entry s).pat.setWidth 12) (t.entry s).len = some s)
    ∧ (∀ p l s, lookupPat t p l = some s →
        t.entry s = ⟨p.extractLsb' 0 11, l⟩ ∧ p.getLsbD 11 = false)
    ∧ (∀ p (l : BitVec 4), l.toNat < 2 ∨ 11 < l.toNat → lookupPat t p l = none))
  ∧ lookupPat fixtureT1 0x002#12 4#4 = some 1#8
  ∧ lookupPat fixtureT1 0x002#12 2#4 = none ∧ lookupPat fixtureT1 0x002#12 3#4 = none

/-- The direction of the search cannot be observed (40_code_table.md R61, 92_eei_decisions.md D18): in an admissible
table a search from symbol 255 down finds what the search from 0 up finds. -/
def Obligations.SearchDirectionCannotBeObserved : Prop :=
  ∀ (t : Table) (p : BitVec 12) (l : BitVec 4), t.Admissible →
    (t.toList.reverse.findIdx? (entryMatches p l)).map (fun n => BitVec.ofNat 8 (255 - n)) = lookupPat t p l

/-- `LKSYM` and then `LKPAT` of the fields it returned find the symbol again (95_test_vectors.md section 5, check 1;
40_code_table.md R64 a). -/
def Obligations.LksymThenLkpatFindsTheSymbol : Prop :=
  ∀ (s : State) (sym : Sym), s.Running → s.rom.Admissible →
    ∃ t, exec (.lksym sym) s = .next t
      ∧ ∃ u, exec (.lkpat (t.res.extractLsb' 0 12) (t.res.extractLsb' 12 4)) t = .next u
        ∧ u.res = 0x100#32 + sym.setWidth 32

/-- Both packings of a ROM word that 10_state.md R14 names give an entry of an admissible table back. -/
def Obligations.RomPackingsLoseNothing : Prop :=
  ∀ (t : Table) (s : Sym), t.Admissible →
    CodeEntry.unpackPair (t.entry s).packPair = t.entry s
    ∧ CodeEntry.unpackMarker (t.entry s).packMarker = t.entry s

/-! ### The encoder (43_encoder.md) -/

/-- `ENC` of a symbol with room in BUF (43_encoder.md R80 and the laws R81; 41_bit_writer.md R72; 30_encoding.md R50):
it completes and the cursor advances by exactly the code's length. Bit `i` of the code lies at bit address `c + i` as
it is in every byte entered at bit index 0, and OR-ed with the bit that was there in a first byte entered elsewhere
(70_reset_and_hazards.md R119); the bits of the first byte below `c` are kept (20_memory.md R42); above the code in its
last byte the bits are 0, or kept if that byte was entered elsewhere than at bit index 0. On fresh ground the code
lies there exactly and the rest of its last byte is 0. No other byte and no other register changes. The laws R81 b to
d and R72 are marked "[derived: ...]" there. -/
def Obligations.EncWritesTheCode : Prop :=
  ∀ (s : State) (sym : Sym), s.Inv → s.Running →
    s.wcur.toNat + s.codeLen sym ≤ 8 * s.bufBytes →
    ∃ t, exec (encOf sym) s = .next t
      ∧ t.wcur.toNat = s.wcur.toNat + s.codeLen sym
      ∧ (∀ i, i < s.codeLen sym →
          (s.wcur.toNat % 8 = 0 ∨ s.wcur.toNat / 8 < (s.wcur.toNat + i) / 8 →
            t.bit (s.wcur.toNat + i) = s.codeBit sym i)
          ∧ (s.wcur.toNat % 8 ≠ 0 → (s.wcur.toNat + i) / 8 = s.wcur.toNat / 8 →
            t.bit (s.wcur.toNat + i) = s.bit (s.wcur.toNat + i) ||| s.codeBit sym i))
      ∧ (∀ a, a < s.wcur.toNat → a / 8 = s.wcur.toNat / 8 → t.bit a = s.bit a)
      ∧ (∀ a, s.wcur.toNat + s.codeLen sym ≤ a → a / 8 = (s.wcur.toNat + s.codeLen sym - 1) / 8 →
          (s.wcur.toNat % 8 = 0 ∨ s.wcur.toNat / 8 < a / 8 → t.bit a = 0#1)
          ∧ (s.wcur.toNat % 8 ≠ 0 → a / 8 = s.wcur.toNat / 8 → t.bit a = s.bit a))
      ∧ (s.FreshAt s.wcur.toNat → t.CodeAt s.wcur.toNat sym
          ∧ ∀ a, s.wcur.toNat + s.codeLen sym ≤ a →
              a / 8 = (s.wcur.toNat + s.codeLen sym - 1) / 8 → t.bit a = 0#1)
      ∧ (∀ a, a < s.wcur.toNat / 8 ∨ (s.wcur.toNat + s.codeLen sym - 1) / 8 < a →
          t.buf.read a = s.buf.read a)
      ∧ { t with wcur := s.wcur, buf := s.buf } = s

/-- A stream this engine wrote can always be continued (70_reset_and_hazards.md R119: "Continuing a stream that this
engine itself wrote is always safe"): after an `ENC` on fresh ground the new cursor stands on fresh ground. -/
def Obligations.EncLeavesFreshGround : Prop :=
  ∀ (s : State) (sym : Sym), s.Inv → s.Running → s.FreshAt s.wcur.toNat →
    s.wcur.toNat + s.codeLen sym < 8 * s.bufBytes →
    ∃ t, exec (encOf sym) s = .next t ∧ t.FreshAt t.wcur.toNat

/-- Several streams on one engine (20_memory.md R42, marked there "[derived: ...]"; 70_reset_and_hazards.md R120): an
`ENC` whose code lies in other bytes leaves the codes of another stream and the ground on which it will continue as
they were. -/
def Obligations.StreamsInDisjointBytesStayApart : Prop :=
  ∀ (s : State) (sym : Sym), s.Inv → s.Running → s.wcur.toNat + s.codeLen sym ≤ 8 * s.bufBytes →
    ∃ t, exec (encOf sym) s = .next t
      ∧ (∀ a other, (∀ i, i < s.codeLen other → (a + i) / 8 < s.wcur.toNat / 8
            ∨ (s.wcur.toNat + s.codeLen sym - 1) / 8 < (a + i) / 8) →
          (t.CodeAt a other ↔ s.CodeAt a other))
      ∧ (∀ a, a / 8 < s.wcur.toNat / 8 ∨ (s.wcur.toNat + s.codeLen sym - 1) / 8 < a / 8 →
          (t.FreshAt a ↔ s.FreshAt a))

/-- `ENC` with an operand of 256 or more (43_encoder.md R80, 60_exceptions.md R95): `SYM_RANGE`, nothing written,
wherever the cursor is. -/
def Obligations.EncOutOfRangeWritesNothing : Prop :=
  ∀ (s : State) (sym : BitVec 24), 256 ≤ sym.toNat →
    (s.Running → exec (.enc sym) s = .next { s with fault := .symRange })
    ∧ (¬ s.Running → exec (.enc sym) s = .next s)

/-- `ENC` that meets the end of BUF (43_encoder.md R80, 60_exceptions.md R103): `WR_BOUNDS`; the bits before the end
have been written as `ENC` writes them (as they are in a byte entered at bit index 0, OR-ed in a first byte entered
elsewhere, exactly on fresh ground), the bits of the first byte below the cursor and all earlier bytes are kept, and
the cursor is the bit address that could not be written; begun outside BUF, nothing is written. -/
def Obligations.EncStopsAtTheEndOfBuf : Prop :=
  ∀ (s : State) (sym : Sym), s.Inv → s.Running → 8 * s.bufBytes < s.wcur.toNat + s.codeLen sym →
    (s.wcur.toNat < 8 * s.bufBytes →
      ∃ t, exec (encOf sym) s = .next t
        ∧ t.fault = .wrBounds ∧ t.wcur.toNat = 8 * s.bufBytes
        ∧ (∀ i, s.wcur.toNat + i < 8 * s.bufBytes →
            (s.wcur.toNat % 8 = 0 ∨ s.wcur.toNat / 8 < (s.wcur.toNat + i) / 8 →
              t.bit (s.wcur.toNat + i) = s.codeBit sym i)
            ∧ (s.wcur.toNat % 8 ≠ 0 → (s.wcur.toNat + i) / 8 = s.wcur.toNat / 8 →
              t.bit (s.wcur.toNat + i) = s.bit (s.wcur.toNat + i) ||| s.codeBit sym i)
            ∧ (s.FreshAt s.wcur.toNat → t.bit (s.wcur.toNat + i) = s.codeBit sym i))
        ∧ (∀ a, a < s.wcur.toNat → a / 8 = s.wcur.toNat / 8 → t.bit a = s.bit a)
        ∧ (∀ a, a < s.wcur.toNat / 8 ∨ s.bufBytes ≤ a → t.buf.read a = s.buf.read a)
        ∧ { t with wcur := s.wcur, buf := s.buf, fault := s.fault } = s)
    ∧ (8 * s.bufBytes ≤ s.wcur.toNat → exec (encOf sym) s = .next { s with fault := .wrBounds })

/-! ### The decoder (44_decoder.md) -/

/-- `DEC` on the code of a symbol (44_decoder.md R87, R89): if the bits at `RCUR` begin with the symbol's code, and it
lies inside BUF, `DEC` stops exactly at its length with that symbol: `RES` is the symbol, `DX` 0, the cursor advances
by the length, and nothing else changes. -/
def Obligations.DecResolvesTheCodeAtTheCursor : Prop :=
  ∀ (s : State) (sym : Sym), s.Inv → s.Running → s.CodeAt s.rcur.toNat sym →
    s.rcur.toNat + s.codeLen sym ≤ 8 * s.bufBytes →
    exec .dec s = .next { s with
      rcur := s.rcur + BitVec.ofNat 32 (s.codeLen sym), res := sym.setWidth 32, dx := false }

/-- Depth-Exceeded (44_decoder.md R87, R88, R93; 90_conflicts.md C1): with twelve bits left in BUF, `DEC` gives up
exactly when no code lies at `RCUR`; then `RES` is 0, `DX` is 1, the cursor has advanced by exactly 12, nothing else
changes and no fault is raised. -/
def Obligations.DecGivesUpAfterTwelveBits : Prop :=
  ∀ s : State, s.Inv → s.Running → s.rcur.toNat + 12 ≤ 8 * s.bufBytes →
    ((∀ sym, ¬ s.CodeAt s.rcur.toNat sym) →
      exec .dec s = .next { s with rcur := s.rcur + 12#32, res := 0#32, dx := true })
    ∧ (∀ t, exec .dec s = .next t → t.dx = true → ∀ sym, ¬ s.CodeAt s.rcur.toNat sym)

/-- `DEC` that meets the end of BUF (44_decoder.md R87, 60_exceptions.md R103): if fewer than twelve bits are left and
no code lies wholly in them, `RD_BOUNDS`; the cursor is the bit address that could not be read, `RES` and `DX` are
unchanged; begun outside BUF, the cursor stays. -/
def Obligations.DecStopsAtTheEndOfBuf : Prop :=
  ∀ s : State, s.Inv → s.Running →
    (s.rcur.toNat < 8 * s.bufBytes → 8 * s.bufBytes < s.rcur.toNat + 12 →
      (∀ sym, s.rcur.toNat + s.codeLen sym ≤ 8 * s.bufBytes → ¬ s.CodeAt s.rcur.toNat sym) →
      exec .dec s = .next { s with rcur := BitVec.ofNat 32 (8 * s.bufBytes), fault := .rdBounds })
    ∧ (8 * s.bufBytes ≤ s.rcur.toNat → exec .dec s = .next { s with fault := .rdBounds })

/-- The cursor's advance tells how a `DEC` ended (44_decoder.md R87; 95_test_vectors.md section 5, check 5): without a
fault it is from 2 to 12, and 12 if and only if `DX` is 1, in which case `RES` is 0. -/
def Obligations.DecAdvanceTellsTheOutcome : Prop :=
  ∀ s t : State, s.Inv → s.Running → exec .dec s = .next t → t.Running →
    s.rcur.toNat + 2 ≤ t.rcur.toNat ∧ t.rcur.toNat ≤ s.rcur.toNat + 12
    ∧ (t.rcur.toNat = s.rcur.toNat + 12 ↔ t.dx = true) ∧ (t.dx = true → t.res = 0#32)

/-- The decoder's state machine (44_decoder.md R86) and its pseudocode (R87) are the same decoder, in every state and
for every table: twelve transitions from Start reach a terminal state, and what it leaves is what `DEC` does. -/
def Obligations.DecoderStateMachineIsDec : Prop :=
  ∀ s : State, s.Running →
    (decMachineRun 12 ⟨.start, emptyAcc, s⟩).phase ≠ .start
    ∧ (decMachineRun 12 ⟨.start, emptyAcc, s⟩).phase ≠ .reading
    ∧ exec .dec s = .next (decMachineResult (decMachineRun 12 ⟨.start, emptyAcc, s⟩))

/-- Round trip (44_decoder.md R90, marked there "[derived: ...]"): on fresh ground with room in BUF the four
transactions `SETW c; ENC s; SETR c; DEC` end with `RES = s`, `DX` 0, both cursors after the code and no fault,
whatever BUF held before. That they stand in `pending` is the model's choice (log entry 3). -/
def Obligations.EncThenDecGivesTheSymbolBack : Prop :=
  ∀ (s : State) (sym : Sym) (c : Word) (rest : List HostTx), s.Inv → s.Running → s.FreshAt c.toNat →
    c.toNat + s.codeLen sym ≤ 8 * s.bufBytes →
    s.pending = (AsmLine.setw c).transaction :: (AsmLine.enc sym.toNat).transaction
      :: (AsmLine.setr c).transaction :: AsmLine.dec.transaction :: rest →
    ∃ t, Sys2Proof.core.run 4 s = .next t
      ∧ t.res = sym.setWidth 32 ∧ t.dx = false ∧ t.Running
      ∧ t.wcur.toNat = c.toNat + s.codeLen sym ∧ t.rcur.toNat = c.toNat + s.codeLen sym
      ∧ t.pending = rest

/-- Multi-symbol streams (44_decoder.md R91, marked there "[derived: ...]"): any sequence of symbols encoded back to
back from fresh ground, with room in BUF, is decoded symbol by symbol: after `k` `DEC` from the start address the
engine is running, the cursor has advanced by the first `k` codes, and the `k`-th has returned the `k`-th symbol with
`DX` 0. -/
def Obligations.SymbolStreamsDecodeInOrder : Prop :=
  ∀ (s : State) (syms : List Sym), s.Inv → s.Running → s.FreshAt s.wcur.toNat →
    s.wcur.toNat + s.streamLen syms ≤ 8 * s.bufBytes →
    ∃ t, runCommands (syms.map encOf) s = .next t
      ∧ t.wcur.toNat = s.wcur.toNat + s.streamLen syms
      ∧ ∀ k, k ≤ syms.length →
        ∃ u, runCommands (List.replicate k .dec) { t with rcur := s.wcur } = .next u
          ∧ u.Running ∧ u.rcur.toNat = s.wcur.toNat + s.streamLen (syms.take k)
          ∧ (∀ j (hj : j < syms.length), k = j + 1 → u.res = (syms[j]).setWidth 32 ∧ u.dx = false)

/-! ### Invariants, frames and independence -/

/-- Every step keeps the invariant: BUF in canonical form and inside its bounds, `BUF_BYTES` from 1 to 2^28
(00_scope.md R5), the table admissible (10_state.md R12). -/
def Obligations.EveryStepKeepsTheInvariant : Prop :=
  ∀ s t : State, s.Inv → step s = .next t → t.Inv

/-- The machine out of reset satisfies the invariant and is running (10_state.md R12, R24; 00_scope.md R5). -/
def Obligations.ResetStateIsSafe : Prop := State.reset.Safe

/-- No step changes the ROM (10_state.md R11: "no command, no host transaction and no reset changes it") or the size
of BUF (00_scope.md R5, a parameter). -/
def Obligations.RomAndBufSizeNeverChange : Prop :=
  ∀ s t : State, step s = .next t → t.rom = s.rom ∧ t.bufBytes = s.bufBytes

/-- Every command completes: `exec` answers a next state in every state (44_decoder.md R92 for `DEC` and `ENC`,
70_reset_and_hazards.md R125 for every command: "every command terminates"). That reading a byte nothing has written
draws a value and never stops is the model's choice (log entry 1). -/
def Obligations.EveryCommandCompletes : Prop :=
  ∀ (i : Instr) (s : State), ∃ t, exec i s = .next t

/-- `RES` and `STATUS.DX` are read by no command (10_state.md R19, R20): with other values of them beforehand a command
does the same to everything else, and each of the two is either written with the same value or left as it was. -/
def Obligations.ResultAndDxAreNeverRead : Prop :=
  ∀ (i : Instr) (s t : State) (v : Word) (d : Bool), exec i s = .next t →
    ∃ u, exec i { s with res := v, dx := d } = .next u ∧ { u with res := t.res, dx := t.dx } = t
      ∧ (u.res = t.res ∨ (u.res = v ∧ t.res = s.res))
      ∧ (u.dx = t.dx ∨ (u.dx = d ∧ t.dx = s.dx))

/-- The cursors are independent (10_state.md R16, R17): `WRBIT` and `ENC` neither read nor write `RCUR`, `RDBIT` and
`DEC` neither read nor write `WCUR`, `LKSYM` and `LKPAT` neither read nor write either. -/
def Obligations.CursorsAreIndependent : Prop :=
  (∀ (i : Instr) (s t : State) (v : Word), ((∃ b, i = .wrbit b) ∨ (∃ n, i = .enc n)) → exec i s = .next t →
    exec i { s with rcur := v } = .next { t with rcur := v })
  ∧ (∀ (i : Instr) (s t : State) (v : Word), (i = .rdbit ∨ i = .dec) → exec i s = .next t →
    exec i { s with wcur := v } = .next { t with wcur := v })
  ∧ (∀ (i : Instr) (s t : State) (v w : Word), ((∃ n, i = .lksym n) ∨ (∃ p l, i = .lkpat p l)) →
    exec i s = .next t → exec i { s with wcur := v, rcur := w } = .next { t with wcur := v, rcur := w })

/-- The frame of the commands that store nothing (42_bit_reader.md R75, R76; 44_decoder.md R87; 40_code_table.md R62,
R63): every byte of BUF, `WCUR`, the ROM and the model's own `pending` and `response` (log entries 3 and 4) are
unchanged; `RDBIT` leaves `DX`, and `LKSYM` and `LKPAT` leave `RCUR` and all of `STATUS`. -/
def Obligations.LoadingCommandsFrame : Prop :=
  ∀ (i : Instr) (s t : State), i = .rdbit ∨ i = .dec ∨ (∃ n, i = .lksym n) ∨ (∃ p l, i = .lkpat p l) →
    exec i s = .next t →
    (∀ a, t.buf.read a = s.buf.read a) ∧ t.wcur = s.wcur ∧ t.rom = s.rom ∧ t.bufBytes = s.bufBytes
    ∧ t.pending = s.pending ∧ t.response = s.response
    ∧ (i ≠ .dec → t.dx = s.dx)
    ∧ (i ≠ .dec → i ≠ .rdbit → t.rcur = s.rcur ∧ t.fault = s.fault)

/-- The frame of the commands that store (41_bit_writer.md R70, R71; 43_encoder.md R80): `RES`, `RCUR`, `DX`, the ROM
and the model's own `pending` and `response` (log entries 3 and 4) are unchanged; every byte of BUF is unchanged
except, for `WRBIT`, the byte at the cursor, and, for `ENC` of a symbol, the bytes at the cursors of its code's bits;
an `ENC` out of range stores nothing. -/
def Obligations.StoringCommandsFrame : Prop :=
  ∀ s t : State,
    (∀ b, exec (.wrbit b) s = .next t →
      (∀ a, a ≠ byteIndex s.wcur → t.buf.read a = s.buf.read a)
      ∧ t.res = s.res ∧ t.rcur = s.rcur ∧ t.dx = s.dx ∧ t.rom = s.rom ∧ t.bufBytes = s.bufBytes
      ∧ t.pending = s.pending ∧ t.response = s.response)
    ∧ (∀ sym : BitVec 24, exec (.enc sym) s = .next t →
      (∀ a, (isSymbol sym = true → ∀ i, i < s.codeLen (sym.setWidth 8) →
          a ≠ byteIndex (s.wcur + BitVec.ofNat 32 i)) → t.buf.read a = s.buf.read a)
      ∧ t.res = s.res ∧ t.rcur = s.rcur ∧ t.dx = s.dx ∧ t.rom = s.rom ∧ t.bufBytes = s.bufBytes
      ∧ t.pending = s.pending ∧ t.response = s.response)

/-- Cursor arithmetic never wraps (00_scope.md R8 a, 44_decoder.md R92): a command moves `WCUR` up by at most 11 and
`RCUR` up by at most 12, as numbers, in every state of a machine whose `BUF_BYTES` is at most 2^28. -/
def Obligations.CursorsNeverWrap : Prop :=
  ∀ (i : Instr) (s t : State), s.Inv → exec i s = .next t →
    s.wcur.toNat ≤ t.wcur.toNat ∧ t.wcur.toNat ≤ s.wcur.toNat + 11
    ∧ s.rcur.toNat ≤ t.rcur.toNat ∧ t.rcur.toNat ≤ s.rcur.toNat + 12
end

