-- ==== Sys2Proof/Laws/State.lean ====
section
/-! SUPPORT. One lemma per field per update of the state, so that no later proof unfolds a record update. -/

namespace Sys2Proof.Machine

@[simp] theorem State.setBufByte_rom (a : Nat) (v : Byte) (s : State) : (s.setBufByte a v).rom = s.rom := rfl
@[simp] theorem State.setBufByte_bufBytes (a : Nat) (v : Byte) (s : State) : (s.setBufByte a v).bufBytes = s.bufBytes := rfl
@[simp] theorem State.setBufByte_buf (a : Nat) (v : Byte) (s : State) : (s.setBufByte a v).buf = s.buf.write a v := rfl
@[simp] theorem State.setBufByte_wcur (a : Nat) (v : Byte) (s : State) : (s.setBufByte a v).wcur = s.wcur := rfl
@[simp] theorem State.setBufByte_rcur (a : Nat) (v : Byte) (s : State) : (s.setBufByte a v).rcur = s.rcur := rfl
@[simp] theorem State.setBufByte_res (a : Nat) (v : Byte) (s : State) : (s.setBufByte a v).res = s.res := rfl
@[simp] theorem State.setBufByte_fault (a : Nat) (v : Byte) (s : State) : (s.setBufByte a v).fault = s.fault := rfl
@[simp] theorem State.setBufByte_dx (a : Nat) (v : Byte) (s : State) : (s.setBufByte a v).dx = s.dx := rfl
@[simp] theorem State.setBufByte_pending (a : Nat) (v : Byte) (s : State) : (s.setBufByte a v).pending = s.pending := rfl
@[simp] theorem State.setBufByte_response (a : Nat) (v : Byte) (s : State) : (s.setBufByte a v).response = s.response := rfl

@[simp] theorem State.setWcur_rom (v : Word) (s : State) : (s.setWcur v).rom = s.rom := rfl
@[simp] theorem State.setWcur_bufBytes (v : Word) (s : State) : (s.setWcur v).bufBytes = s.bufBytes := rfl
@[simp] theorem State.setWcur_buf (v : Word) (s : State) : (s.setWcur v).buf = s.buf := rfl
@[simp] theorem State.setWcur_wcur (v : Word) (s : State) : (s.setWcur v).wcur = v := rfl
@[simp] theorem State.setWcur_rcur (v : Word) (s : State) : (s.setWcur v).rcur = s.rcur := rfl
@[simp] theorem State.setWcur_res (v : Word) (s : State) : (s.setWcur v).res = s.res := rfl
@[simp] theorem State.setWcur_fault (v : Word) (s : State) : (s.setWcur v).fault = s.fault := rfl
@[simp] theorem State.setWcur_dx (v : Word) (s : State) : (s.setWcur v).dx = s.dx := rfl
@[simp] theorem State.setWcur_pending (v : Word) (s : State) : (s.setWcur v).pending = s.pending := rfl
@[simp] theorem State.setWcur_response (v : Word) (s : State) : (s.setWcur v).response = s.response := rfl

@[simp] theorem State.setRcur_rom (v : Word) (s : State) : (s.setRcur v).rom = s.rom := rfl
@[simp] theorem State.setRcur_bufBytes (v : Word) (s : State) : (s.setRcur v).bufBytes = s.bufBytes := rfl
@[simp] theorem State.setRcur_buf (v : Word) (s : State) : (s.setRcur v).buf = s.buf := rfl
@[simp] theorem State.setRcur_wcur (v : Word) (s : State) : (s.setRcur v).wcur = s.wcur := rfl
@[simp] theorem State.setRcur_rcur (v : Word) (s : State) : (s.setRcur v).rcur = v := rfl
@[simp] theorem State.setRcur_res (v : Word) (s : State) : (s.setRcur v).res = s.res := rfl
@[simp] theorem State.setRcur_fault (v : Word) (s : State) : (s.setRcur v).fault = s.fault := rfl
@[simp] theorem State.setRcur_dx (v : Word) (s : State) : (s.setRcur v).dx = s.dx := rfl
@[simp] theorem State.setRcur_pending (v : Word) (s : State) : (s.setRcur v).pending = s.pending := rfl
@[simp] theorem State.setRcur_response (v : Word) (s : State) : (s.setRcur v).response = s.response := rfl

@[simp] theorem State.setRes_rom (v : Word) (s : State) : (s.setRes v).rom = s.rom := rfl
@[simp] theorem State.setRes_bufBytes (v : Word) (s : State) : (s.setRes v).bufBytes = s.bufBytes := rfl
@[simp] theorem State.setRes_buf (v : Word) (s : State) : (s.setRes v).buf = s.buf := rfl
@[simp] theorem State.setRes_wcur (v : Word) (s : State) : (s.setRes v).wcur = s.wcur := rfl
@[simp] theorem State.setRes_rcur (v : Word) (s : State) : (s.setRes v).rcur = s.rcur := rfl
@[simp] theorem State.setRes_res (v : Word) (s : State) : (s.setRes v).res = v := rfl
@[simp] theorem State.setRes_fault (v : Word) (s : State) : (s.setRes v).fault = s.fault := rfl
@[simp] theorem State.setRes_dx (v : Word) (s : State) : (s.setRes v).dx = s.dx := rfl
@[simp] theorem State.setRes_pending (v : Word) (s : State) : (s.setRes v).pending = s.pending := rfl
@[simp] theorem State.setRes_response (v : Word) (s : State) : (s.setRes v).response = s.response := rfl

@[simp] theorem State.setDx_rom (d : Bool) (s : State) : (s.setDx d).rom = s.rom := rfl
@[simp] theorem State.setDx_bufBytes (d : Bool) (s : State) : (s.setDx d).bufBytes = s.bufBytes := rfl
@[simp] theorem State.setDx_buf (d : Bool) (s : State) : (s.setDx d).buf = s.buf := rfl
@[simp] theorem State.setDx_wcur (d : Bool) (s : State) : (s.setDx d).wcur = s.wcur := rfl
@[simp] theorem State.setDx_rcur (d : Bool) (s : State) : (s.setDx d).rcur = s.rcur := rfl
@[simp] theorem State.setDx_res (d : Bool) (s : State) : (s.setDx d).res = s.res := rfl
@[simp] theorem State.setDx_fault (d : Bool) (s : State) : (s.setDx d).fault = s.fault := rfl
@[simp] theorem State.setDx_dx (d : Bool) (s : State) : (s.setDx d).dx = d := rfl
@[simp] theorem State.setDx_pending (d : Bool) (s : State) : (s.setDx d).pending = s.pending := rfl
@[simp] theorem State.setDx_response (d : Bool) (s : State) : (s.setDx d).response = s.response := rfl

@[simp] theorem State.raise_rom (f : FaultCode) (s : State) : (s.raise f).rom = s.rom := rfl
@[simp] theorem State.raise_bufBytes (f : FaultCode) (s : State) : (s.raise f).bufBytes = s.bufBytes := rfl
@[simp] theorem State.raise_buf (f : FaultCode) (s : State) : (s.raise f).buf = s.buf := rfl
@[simp] theorem State.raise_wcur (f : FaultCode) (s : State) : (s.raise f).wcur = s.wcur := rfl
@[simp] theorem State.raise_rcur (f : FaultCode) (s : State) : (s.raise f).rcur = s.rcur := rfl
@[simp] theorem State.raise_res (f : FaultCode) (s : State) : (s.raise f).res = s.res := rfl
@[simp] theorem State.raise_fault (f : FaultCode) (s : State) : (s.raise f).fault = f := rfl
@[simp] theorem State.raise_dx (f : FaultCode) (s : State) : (s.raise f).dx = s.dx := rfl
@[simp] theorem State.raise_pending (f : FaultCode) (s : State) : (s.raise f).pending = s.pending := rfl
@[simp] theorem State.raise_response (f : FaultCode) (s : State) : (s.raise f).response = s.response := rfl

@[simp] theorem State.respond_rom (r : Response) (s : State) : (s.respond r).rom = s.rom := rfl
@[simp] theorem State.respond_bufBytes (r : Response) (s : State) : (s.respond r).bufBytes = s.bufBytes := rfl
@[simp] theorem State.respond_buf (r : Response) (s : State) : (s.respond r).buf = s.buf := rfl
@[simp] theorem State.respond_wcur (r : Response) (s : State) : (s.respond r).wcur = s.wcur := rfl
@[simp] theorem State.respond_rcur (r : Response) (s : State) : (s.respond r).rcur = s.rcur := rfl
@[simp] theorem State.respond_res (r : Response) (s : State) : (s.respond r).res = s.res := rfl
@[simp] theorem State.respond_fault (r : Response) (s : State) : (s.respond r).fault = s.fault := rfl
@[simp] theorem State.respond_dx (r : Response) (s : State) : (s.respond r).dx = s.dx := rfl
@[simp] theorem State.respond_pending (r : Response) (s : State) : (s.respond r).pending = s.pending := rfl
@[simp] theorem State.respond_response (r : Response) (s : State) : (s.respond r).response = some r := rfl

@[simp] theorem State.afterTake_rom (rest : List HostTx) (s : State) : (s.afterTake rest).rom = s.rom := rfl
@[simp] theorem State.afterTake_bufBytes (rest : List HostTx) (s : State) : (s.afterTake rest).bufBytes = s.bufBytes := rfl
@[simp] theorem State.afterTake_buf (rest : List HostTx) (s : State) : (s.afterTake rest).buf = s.buf := rfl
@[simp] theorem State.afterTake_wcur (rest : List HostTx) (s : State) : (s.afterTake rest).wcur = s.wcur := rfl
@[simp] theorem State.afterTake_rcur (rest : List HostTx) (s : State) : (s.afterTake rest).rcur = s.rcur := rfl
@[simp] theorem State.afterTake_res (rest : List HostTx) (s : State) : (s.afterTake rest).res = s.res := rfl
@[simp] theorem State.afterTake_fault (rest : List HostTx) (s : State) : (s.afterTake rest).fault = s.fault := rfl
@[simp] theorem State.afterTake_dx (rest : List HostTx) (s : State) : (s.afterTake rest).dx = s.dx := rfl
@[simp] theorem State.afterTake_pending (rest : List HostTx) (s : State) : (s.afterTake rest).pending = rest := rfl
@[simp] theorem State.afterTake_response (rest : List HostTx) (s : State) : (s.afterTake rest).response = s.response := rfl

@[simp] theorem State.resetEngine_rom (s : State) : s.resetEngine.rom = s.rom := rfl
@[simp] theorem State.resetEngine_bufBytes (s : State) : s.resetEngine.bufBytes = s.bufBytes := rfl
@[simp] theorem State.resetEngine_buf (s : State) : s.resetEngine.buf = s.buf := rfl
@[simp] theorem State.resetEngine_wcur (s : State) : s.resetEngine.wcur = 0#32 := rfl
@[simp] theorem State.resetEngine_rcur (s : State) : s.resetEngine.rcur = 0#32 := rfl
@[simp] theorem State.resetEngine_res (s : State) : s.resetEngine.res = 0#32 := rfl
@[simp] theorem State.resetEngine_fault (s : State) : s.resetEngine.fault = .noFault := rfl
@[simp] theorem State.resetEngine_dx (s : State) : s.resetEngine.dx = false := rfl
@[simp] theorem State.resetEngine_pending (s : State) : s.resetEngine.pending = s.pending := rfl
@[simp] theorem State.resetEngine_response (s : State) : s.resetEngine.response = s.response := rfl

@[simp] theorem State.setRcur_setRcur (v w : Word) (s : State) : (s.setRcur v).setRcur w = s.setRcur w := rfl

@[simp] theorem State.setRcur_self (s : State) : s.setRcur s.rcur = s := rfl

@[simp] theorem State.halted_eq_false_iff (s : State) : s.halted = false ↔ s.Running := by
  unfold State.halted State.Running
  cases s.fault <;> simp [FaultCode.code]

@[simp] theorem State.halted_eq_true_iff (s : State) : s.halted = true ↔ ¬ s.Running := by
  rw [← State.halted_eq_false_iff, Bool.not_eq_false]

/-- A running engine lets a command take effect (60_exceptions.md R97). -/
theorem whenRunning_of_running (f : State → State) (s : State) (h : s.Running) : whenRunning f s = f s := by
  simp [whenRunning, h]

/-- A halted engine ignores it (60_exceptions.md R97). -/
theorem whenRunning_of_halted (f : State → State) (s : State) (h : ¬ s.Running) : whenRunning f s = s := by
  simp [whenRunning, h]

/-- What survives whether or not the engine is running. -/
theorem whenRunning_keeps {P : State → Prop} {f : State → State} {s : State} (hs : P s) (hf : P (f s)) :
    P (whenRunning f s) := by
  unfold whenRunning
  split <;> assumption

end Sys2Proof.Machine
end

