-- ==== Sys2Proof/Laws/Cursor.lean ====
section
/-! SUPPORT. A bit cursor as a number: its byte and bit, its bounds test, and that an admitted cursor can advance
without wrapping (00_scope.md R8). -/

namespace Sys2Proof.Machine

theorem byteIndex_eq (c : Word) : byteIndex c = c.toNat / 8 := by
  simp [byteIndex, Nat.shiftRight_eq_div_pow]

theorem bitIndex_eq (c : Word) : bitIndex c = c.toNat % 8 := by
  have : (7#32).toNat = 2 ^ 3 - 1 := rfl
  rw [bitIndex, BitVec.toNat_and, this, Nat.and_two_pow_sub_one_eq_mod]

theorem bitIndex_lt (c : Word) : bitIndex c < 8 := by
  rw [bitIndex_eq]; omega

/-- The bounds test on numbers (20_memory.md R35). -/
theorem State.admits_iff (s : State) (c : Word) : s.admits c = true ↔ c.toNat < 8 * s.bufBytes := by
  rw [State.admits, decide_eq_true_iff, byteIndex_eq]
  omega

/-- An admitted cursor advances by exactly 1 (00_scope.md R8). -/
theorem State.toNat_succ {s : State} {c : Word} (hB : s.bufBytes ≤ 2 ^ 28) (h : s.admits c = true) :
    (c + 1#32).toNat = c.toNat + 1 := by
  rw [State.admits_iff] at h
  rw [BitVec.toNat_add]
  simp
  omega

/-- A bit extracted from a byte into which a bit is OR-ed. -/
theorem bitOfByte_or_shift (x : Byte) (b : Bit) {j k : Nat} (hj : j < 8) :
    bitOfByte (x ||| (b.setWidth 8 <<< k)) j
      = if j = k then bitOfByte x j ||| b else bitOfByte x j := by
  unfold bitOfByte
  refine BitVec.eq_of_getLsbD_eq fun i hi => ?_
  obtain rfl : i = 0 := by omega
  have hb : b.getLsbD (j - k) = if j - k = 0 then b.getLsbD 0 else false := by
    split
    · rename_i h; rw [h]
    · exact BitVec.getLsbD_of_ge _ _ (by omega)
  by_cases hjk : j = k
  · subst hjk
    simp [hj]
  · by_cases hlt : j < k
    · simp [hjk, hj, hlt]
    · have : j - k ≠ 0 := by omega
      simp [hjk, hj, hb, this]

/-- A bit cut out of zero is zero. -/
@[simp] theorem bitOfByte_zero (k : Nat) : bitOfByte 0#8 k = 0#1 := by
  unfold bitOfByte
  ext i hi
  simp

/-- A word sum that does not wrap. -/
theorem toNat_add_ofNat {c : Word} {n : Nat} (h : c.toNat + n < 2 ^ 32) :
    (c + BitVec.ofNat 32 n).toNat = c.toNat + n := by
  rw [BitVec.toNat_add, BitVec.toNat_ofNat]
  omega

end Sys2Proof.Machine
end

