-- ==== Sys2Proof/Laws/Decode.lean ====
section
/-! SUPPORT. Decoding and encoding on numbers: which words select which row of the opcode map, and the value of an
encoded word (30_encoding.md R46, R47). -/

namespace Sys2Proof

/-- Masking off the low `k` bits is shifting them out and back. -/
theorem and_highMask_eq_shift (w m : Word) (k : Nat) (hm : ∀ i, i < 32 → m.getLsbD i = decide (k ≤ i)) :
    w &&& m = (w >>> k) <<< k := by
  refine BitVec.eq_of_getLsbD_eq fun i hi => ?_
  simp only [BitVec.getLsbD_and, hm i hi, BitVec.getLsbD_shiftLeft, BitVec.getLsbD_ushiftRight, hi]
  by_cases h : k ≤ i
  · simp [h, show ¬ i < k by omega, show k + (i - k) = i by omega]
  · simp [h, show i < k by omega]

/-- A masked comparison, on numbers. -/
theorem and_highMask_eq_iff (w m v : Word) (k : Nat) (hm : ∀ i, i < 32 → m.getLsbD i = decide (k ≤ i)) :
    (w &&& m = v) ↔ w.toNat / 2 ^ k * 2 ^ k = v.toNat := by
  rw [and_highMask_eq_shift w m k hm, ← BitVec.toNat_inj, BitVec.toNat_shiftLeft, BitVec.toNat_ushiftRight,
    Nat.shiftLeft_eq, Nat.shiftRight_eq_div_pow, Nat.mod_eq_of_lt]
  exact Nat.lt_of_le_of_lt (Nat.div_mul_le_self _ _) w.isLt

/-- The six masked comparisons of the opcode map, on numbers (30_encoding.md R47). -/
theorem opcodeMap_iff (w : Word) :
    (w &&& 0xFFFFFFFE#32 = 0x01000000#32 ↔ w.toNat / 2 * 2 = 0x01000000)
    ∧ (w &&& 0xFFFFFFFF#32 = 0x02000000#32 ↔ w.toNat = 0x02000000)
    ∧ (w &&& 0xFF000000#32 = 0x03000000#32 ↔ w.toNat / 16777216 * 16777216 = 0x03000000)
    ∧ (w &&& 0xFFFFFFFF#32 = 0x04000000#32 ↔ w.toNat = 0x04000000)
    ∧ (w &&& 0xFFFFFF00#32 = 0x05000000#32 ↔ w.toNat / 256 * 256 = 0x05000000)
    ∧ (w &&& 0xFFFF0000#32 = 0x06000000#32 ↔ w.toNat / 65536 * 65536 = 0x06000000) :=
  ⟨by simpa using and_highMask_eq_iff w 0xFFFFFFFE#32 0x01000000#32 1 (by decide),
    by simpa using and_highMask_eq_iff w 0xFFFFFFFF#32 0x02000000#32 0 (by decide),
    by simpa using and_highMask_eq_iff w 0xFF000000#32 0x03000000#32 24 (by decide),
    by simpa using and_highMask_eq_iff w 0xFFFFFFFF#32 0x04000000#32 0 (by decide),
    by simpa using and_highMask_eq_iff w 0xFFFFFF00#32 0x05000000#32 8 (by decide),
    by simpa using and_highMask_eq_iff w 0xFFFF0000#32 0x06000000#32 16 (by decide)⟩

/-- The decoder as a choice between the six masked comparisons, in the opcode map's order. -/
theorem decode_eq_cond (w : Word) : decode w =
    bif w &&& 0xFFFFFFFE#32 == 0x01000000#32 then .ok (.wrbit (w.extractLsb' 0 1))
    else bif w &&& 0xFFFFFFFF#32 == 0x02000000#32 then .ok .rdbit
    else bif w &&& 0xFF000000#32 == 0x03000000#32 then .ok (.enc (w.extractLsb' 0 24))
    else bif w &&& 0xFFFFFFFF#32 == 0x04000000#32 then .ok .dec
    else bif w &&& 0xFFFFFF00#32 == 0x05000000#32 then .ok (.lksym (w.extractLsb' 0 8))
    else bif w &&& 0xFFFF0000#32 == 0x06000000#32 then
      .ok (.lkpat (w.extractLsb' 0 12) (w.extractLsb' 12 4))
    else .error (rejection w) := by
  simp only [decode, opcodeTable, List.find?_cons, List.find?_nil, OpcodeRow.selects]
  generalize (w &&& 0xFFFFFFFE#32 == 0x01000000#32) = b1
  generalize (w &&& 0xFFFFFFFF#32 == 0x02000000#32) = b2
  generalize (w &&& 0xFF000000#32 == 0x03000000#32) = b3
  generalize (w &&& 0xFFFFFFFF#32 == 0x04000000#32) = b4
  generalize (w &&& 0xFFFFFF00#32 == 0x05000000#32) = b5
  generalize (w &&& 0xFFFF0000#32 == 0x06000000#32) = b6
  cases b1 <;> cases b2 <;> cases b3 <;> cases b4 <;> cases b5 <;> cases b6 <;> rfl

/-- The decoder on numbers: the row selected, and its operands. -/
theorem decode_eq (w : Word) : decode w =
    if w.toNat / 2 * 2 = 0x01000000 then .ok (.wrbit (w.extractLsb' 0 1))
    else if w.toNat = 0x02000000 then .ok .rdbit
    else if w.toNat / 16777216 * 16777216 = 0x03000000 then .ok (.enc (w.extractLsb' 0 24))
    else if w.toNat = 0x04000000 then .ok .dec
    else if w.toNat / 256 * 256 = 0x05000000 then .ok (.lksym (w.extractLsb' 0 8))
    else if w.toNat / 65536 * 65536 = 0x06000000 then
      .ok (.lkpat (w.extractLsb' 0 12) (w.extractLsb' 12 4))
    else .error (rejection w) := by
  obtain ⟨h1, h2, h3, h4, h5, h6⟩ := opcodeMap_iff w
  rw [decode_eq_cond]
  simp only [beq_eq_decide, decide_eq_decide.2 h1, decide_eq_decide.2 h2, decide_eq_decide.2 h3,
    decide_eq_decide.2 h4, decide_eq_decide.2 h5, decide_eq_decide.2 h6, Bool.cond_decide]

/-- The value of a concatenation. -/
theorem toNat_append_eq {m n : Nat} (a : BitVec m) (b : BitVec n) :
    (a ++ b).toNat = a.toNat * 2 ^ n + b.toNat := by
  rw [BitVec.toNat_append, Nat.shiftLeft_eq, Nat.mul_comm, ← Nat.two_pow_add_eq_or_of_lt b.isLt]

/-- The value of a field. -/
theorem toNat_field {n : Nat} (w : BitVec n) (a k : Nat) :
    (w.extractLsb' a k).toNat = w.toNat / 2 ^ a % 2 ^ k := by
  simp [BitVec.extractLsb'_toNat, Nat.shiftRight_eq_div_pow]

/-- The value of an encoded word (30_encoding.md R52 writes the words so). -/
theorem toNat_encode (i : Instr) : (encode i).toNat = match i with
    | .wrbit b => 0x01000000 + b.toNat
    | .rdbit => 0x02000000
    | .enc s => 0x03000000 + s.toNat
    | .dec => 0x04000000
    | .lksym s => 0x05000000 + s.toNat
    | .lkpat p l => 0x06000000 + l.toNat * 4096 + p.toNat := by
  cases i <;> simp only [encode, Instr.opcode, Instr.argument, Opcode.byte, toNat_append_eq,
    BitVec.toNat_ofNat] <;> omega

end Sys2Proof
end

