-- ==== Sys2Proof/Laws/Reader.lean ====
section
/-! SUPPORT. What `ReadBit` does (42_bit_reader.md R75). -/

namespace Sys2Proof.Machine

/-- The bit at the read cursor, by bit address. -/
theorem bitAtCursor_eq (s : State) : bitAtCursor s = s.bit s.rcur.toNat := by
  rw [bitAtCursor, State.bit, byteIndex_eq, bitIndex_eq]

/-- `ReadBit` on an admitted cursor. -/
theorem readBit_of_admits {s : State} (h : s.admits s.rcur = true) :
    readBit s = .bit (s.bit s.rcur.toNat) (s.setRcur (s.rcur + 1#32)) := by
  simp [readBit, h, bitAtCursor_eq]

/-- `ReadBit` on a cursor that is not admitted. -/
theorem readBit_of_not_admits {s : State} (h : s.admits s.rcur = false) :
    readBit s = .raised (s.raise .rdBounds) := by
  simp [readBit, h]

/-- The two things `ReadBit` can do. -/
theorem readBit_cases (s : State) :
    (s.admits s.rcur = true ∧ readBit s = .bit (s.bit s.rcur.toNat) (s.setRcur (s.rcur + 1#32)))
    ∨ (s.admits s.rcur = false ∧ readBit s = .raised (s.raise .rdBounds)) := by
  cases h : s.admits s.rcur
  · exact .inr ⟨rfl, readBit_of_not_admits h⟩
  · exact .inl ⟨rfl, readBit_of_admits h⟩

/-- Moving the read cursor changes no bit of BUF. -/
@[simp] theorem State.bit_setRcur (s : State) (v : Word) (a : Nat) : (s.setRcur v).bit a = s.bit a := rfl

end Sys2Proof.Machine
end

