-- ==== Sys2Proof/Laws/Table.lean ====
section
/-! SUPPORT. What `LookupPat` finds (40_code_table.md R61, R64). -/

namespace Sys2Proof.Machine

theorem entryMatches_iff (p : BitVec 12) (l : BitVec 4) (e : CodeEntry) :
    entryMatches p l e = true ↔ e.len = l ∧ e.pat.setWidth 12 = p := by
  simp [entryMatches]

/-- What is found matches (40_code_table.md R64 b). -/
theorem lookupPat_some {t : Table} {p : BitVec 12} {l : BitVec 4} {s : Sym} (h : lookupPat t p l = some s) :
    (t.entry s).len = l ∧ (t.entry s).pat.setWidth 12 = p := by
  rw [lookupPat, Option.map_eq_some_iff] at h
  obtain ⟨n, hn, rfl⟩ := h
  rw [List.findIdx?_eq_some_iff_getElem] at hn
  obtain ⟨hlt, hm, -⟩ := hn
  rw [← entryMatches_iff]
  have hlen : n < 256 := by simpa using hlt
  have : (BitVec.ofNat 8 n).toNat = n := by simp; omega
  simpa [Table.entry, this] using hm

/-- Nothing is found when nothing matches, and only then. -/
theorem lookupPat_none {t : Table} {p : BitVec 12} {l : BitVec 4} :
    lookupPat t p l = none ↔ ∀ s : Sym, ¬ ((t.entry s).len = l ∧ (t.entry s).pat.setWidth 12 = p) := by
  rw [lookupPat, Option.map_eq_none_iff, List.findIdx?_eq_none_iff]
  constructor
  · intro h s hs
    have := h (t.entry s) (by simp [Table.entry])
    rw [← entryMatches_iff] at hs
    simp [hs] at this
  · intro h e he
    obtain ⟨n, hn, rfl⟩ := List.getElem_of_mem he
    have hlen : n < 256 := by simpa using hn
    have hn2 : (BitVec.ofNat 8 n).toNat = n := by simp; omega
    have := h (BitVec.ofNat 8 n)
    rw [← entryMatches_iff] at this
    simpa [Table.entry, hn2] using this

/-- In an admissible table at most one symbol has a given pattern and length (10_state.md R12 W5). -/
theorem admissible_unique {t : Table} (h : t.Admissible) {a b : Sym}
    (hl : (t.entry a).len = (t.entry b).len)
    (hp : (t.entry a).pat.setWidth 12 = (t.entry b).pat.setWidth 12) : a = b := by
  by_contra hab
  refine h.noDuplicates a b hab (CodeEntry.ext ?_ hl)
  have := congrArg (BitVec.setWidth 11) hp
  simpa using this

/-- A symbol that matches is the one found, in an admissible table (40_code_table.md R64 a). -/
theorem lookupPat_of_match {t : Table} (h : t.Admissible) {p : BitVec 12} {l : BitVec 4} {s : Sym}
    (hl : (t.entry s).len = l) (hp : (t.entry s).pat.setWidth 12 = p) : lookupPat t p l = some s := by
  cases hq : lookupPat t p l with
  | none => exact absurd ⟨hl, hp⟩ (lookupPat_none.1 hq s)
  | some u =>
    obtain ⟨hul, hup⟩ := lookupPat_some hq
    rw [admissible_unique h (hul.trans hl.symm) (hup.trans hp.symm)]

end Sys2Proof.Machine
end

