-- ==== Sys2Proof/Laws/Decoder.lean ====
section
/-! SUPPORT. What the loop of `DEC` does (44_decoder.md R85, R87): the accumulator after some bits, and the three ways
the loop ends. -/

namespace Sys2Proof.Machine

/-- The accumulator after `n` bits read from bit address `c` (44_decoder.md R85). -/
def accAfter (s : State) (c : Nat) : Nat → Acc
  | 0 => emptyAcc
  | n + 1 => appendBit (accAfter s c n) (s.bit (c + n))

theorem accAfter_len (s : State) (c : Nat) {n : Nat} (hn : n ≤ 12) : (accAfter s c n).len.toNat = n := by
  induction n with
  | zero => rfl
  | succ n ih =>
    have := ih (by omega)
    simp only [accAfter, appendBit, BitVec.toNat_add, this]
    simp
    omega

/-- Bit `i` of the accumulator's pattern is the `i`-th bit read, and the bits above are 0 (44_decoder.md R85). -/
theorem accAfter_pat (s : State) (c : Nat) {n : Nat} (hn : n ≤ 12) (i : Nat) :
    (accAfter s c n).pat.getLsbD i = (decide (i < n) && (s.bit (c + i)).getLsbD 0) := by
  induction n with
  | zero => simp [accAfter, emptyAcc]
  | succ n ih =>
    have hlen := accAfter_len s c (n := n) (by omega)
    simp only [accAfter, appendBit, hlen, BitVec.getLsbD_or, ih (by omega), BitVec.getLsbD_shiftLeft,
      BitVec.getLsbD_setWidth]
    rcases Nat.lt_trichotomy i n with h | rfl | h
    · simp [h, show i < n + 1 by omega]
    · simp [show i < 12 by omega]
    · have h0 : i - n ≠ 0 := by omega
      have : (s.bit (c + n)).getLsbD (i - n) = false := BitVec.getLsbD_of_ge _ _ (by omega)
      simp [show ¬ i < n by omega, show ¬ i < n + 1 by omega, this]

/-- An entry matches the accumulator after `n` bits exactly when it has length `n` and its code lies there. -/
theorem accAfter_matches {s : State} {c n : Nat} (hn : n ≤ 12) (hw : s.rom.Normalised) (sym : Sym) :
    ((s.rom.entry sym).len = (accAfter s c n).len ∧ (s.rom.entry sym).pat.setWidth 12 = (accAfter s c n).pat)
      ↔ s.codeLen sym = n ∧ s.CodeAt c sym := by
  have hl : ((s.rom.entry sym).len = (accAfter s c n).len) ↔ s.codeLen sym = n := by
    rw [← BitVec.toNat_inj, accAfter_len s c hn]; rfl
  rw [hl]
  refine and_congr_right fun hlen => ?_
  have hhigh : ∀ i, n ≤ i → (s.rom.entry sym).pat.getLsbD i = false := by
    intro i hi
    refine Nat.testBit_lt_two_pow (Nat.lt_of_lt_of_le (hw sym) (Nat.pow_le_pow_right (by omega) ?_))
    exact Nat.le_trans (Nat.le_of_eq hlen) hi
  have hcode : ∀ i, (s.codeBit sym i)[0] = (s.rom.entry sym).pat.getLsbD i := by
    intro i; simp [State.codeBit]
  constructor
  · intro h i hi
    rw [hlen] at hi
    refine BitVec.eq_of_getLsbD_eq fun j hj => ?_
    obtain rfl : j = 0 := by omega
    have := congrArg (fun v => v.getLsbD i) h
    simp only [accAfter_pat s c hn, BitVec.getLsbD_setWidth] at this
    simpa [hcode, hi, show i < 12 by omega] using this.symm
  · intro h
    refine BitVec.eq_of_getLsbD_eq fun i hi => ?_
    rw [accAfter_pat s c hn, BitVec.getLsbD_setWidth]
    by_cases hin : i < n
    · simp [hi, hin, h i (hlen.symm ▸ hin), hcode]
    · simp [hin, hhigh i (by omega)]

/-- A lookup of the accumulator after `n` bits, in an admissible table: the symbol whose code of length `n` lies
there, if any. -/
theorem accLookup_eq_some {s : State} {c n : Nat} (hn : n ≤ 12) (ha : s.rom.Admissible) (sym : Sym) :
    accLookup s.rom (accAfter s c n) = some sym ↔ s.codeLen sym = n ∧ s.CodeAt c sym := by
  have hm := accAfter_matches (c := c) hn ha.normalised
  unfold accLookup
  rw [accAfter_len s c hn]
  split
  · rename_i hlt
    simp only [Config.firstLookupLen] at hlt
    have := (ha.lengths sym).1
    constructor
    · intro h; cases h
    · rintro ⟨h, -⟩
      unfold State.codeLen at h
      omega
  · rw [← hm]
    exact ⟨lookupPat_some, fun h => lookupPat_of_match ha h.1 h.2⟩

theorem accLookup_eq_none {s : State} {c n : Nat} (hn : n ≤ 12) (ha : s.rom.Admissible) :
    accLookup s.rom (accAfter s c n) = none ↔ ∀ sym, ¬ (s.codeLen sym = n ∧ s.CodeAt c sym) := by
  constructor
  · intro h sym hs
    rw [(accLookup_eq_some hn ha sym).2 hs] at h
    cases h
  · intro h
    cases hq : accLookup s.rom (accAfter s c n) with
    | none => rfl
    | some sym => exact absurd ((accLookup_eq_some hn ha sym).1 hq) (h sym)

/-- `m` rounds of the loop that read admitted bits and find nothing, from the accumulator after `n` bits. -/
theorem decodeLoop_rounds {s : State} {c : Nat} (ha : s.rom.Admissible) (hB : s.bufBytes ≤ 2 ^ 28)
    (k m n : Nat) (hn : n + m ≤ 12) (hc : c + n + m ≤ 8 * s.bufBytes)
    (hno : ∀ sym, n < s.codeLen sym → s.codeLen sym ≤ n + m → ¬ s.CodeAt c sym) :
    decodeLoop (m + k) (accAfter s c n) (s.setRcur (BitVec.ofNat 32 (c + n)))
      = decodeLoop k (accAfter s c (n + m)) (s.setRcur (BitVec.ofNat 32 (c + n + m))) := by
  induction m generalizing n with
  | zero => simp
  | succ m ih =>
    have hcn : (BitVec.ofNat 32 (c + n)).toNat = c + n := by simp; omega
    have hadm : (s.setRcur (BitVec.ofNat 32 (c + n))).admits (BitVec.ofNat 32 (c + n)) = true := by
      rw [State.admits_iff, hcn]; simp; omega
    have hstep : BitVec.ofNat 32 (c + n) + 1#32 = BitVec.ofNat 32 (c + (n + 1)) := by
      rw [← BitVec.toNat_inj, BitVec.toNat_add, hcn]; simp; omega
    have hnone : accLookup s.rom (accAfter s c (n + 1)) = none := by
      rw [accLookup_eq_none (by omega) ha]
      rintro sym ⟨h1, h2⟩
      exact hno sym (by omega) (by omega) h2
    have := ih (n + 1) (by omega) (by omega) (fun sym h1 h2 => hno sym (by omega) (by omega))
    rw [show m + 1 + k = (m + k) + 1 by omega, decodeLoop, readBit_of_admits hadm]
    simp only [State.setRcur_rcur, hcn, State.bit_setRcur, hstep, State.setRcur_rom]
    rw [show appendBit (accAfter s c n) (s.bit (c + n)) = accAfter s c (n + 1) from rfl, hnone]
    simpa [Nat.add_assoc, Nat.add_comm 1 m] using this

end Sys2Proof.Machine
end

