-- ==== Sys2Proof/Laws/Writer.lean ====
section
/-! SUPPORT. What `WriteBit` and a run of `WriteBit` calls do (41_bit_writer.md R70, R72). -/

namespace Sys2Proof.Machine

/-- `WriteBit` on an admitted cursor. -/
theorem writeBit_of_admits {s : State} (b : Bit) (h : s.admits s.wcur = true) :
    writeBit b s
      = (s.setBufByte (byteIndex s.wcur) (byteWithBit b s)).setWcur (s.wcur + 1#32) := by
  simp [writeBit, h]

/-- `WriteBit` on a cursor that is not admitted. -/
theorem writeBit_of_not_admits {s : State} (b : Bit) (h : s.admits s.wcur = false) :
    writeBit b s = s.raise .wrBounds := by
  simp [writeBit, h]

/-- The two things `WriteBit` can do. -/
theorem writeBit_cases (b : Bit) (s : State) :
    (s.admits s.wcur = true ∧ writeBit b s
      = (s.setBufByte (byteIndex s.wcur) (byteWithBit b s)).setWcur (s.wcur + 1#32))
    ∨ (s.admits s.wcur = false ∧ writeBit b s = s.raise .wrBounds) := by
  cases h : s.admits s.wcur
  · exact .inr ⟨rfl, writeBit_of_not_admits b h⟩
  · exact .inl ⟨rfl, writeBit_of_admits b h⟩

/-- An admitted bit keeps the engine running. -/
theorem writeBit_running {s : State} (b : Bit) (h : s.admits s.wcur = true) (hr : s.Running) :
    (writeBit b s).Running := by
  rw [writeBit_of_admits b h]; exact hr

@[simp] theorem writeBits_nil (s : State) : writeBits [] s = s := rfl

/-- A run goes on after an admitted bit. -/
theorem writeBits_cons_of_admits {s : State} (b : Bit) (bs : List Bit) (h : s.admits s.wcur = true)
    (hr : s.Running) : writeBits (b :: bs) s = writeBits bs (writeBit b s) := by
  have := (State.halted_eq_false_iff _).2 (writeBit_running b h hr)
  simp [writeBits, this]

/-- A run ends at the first bit that is not admitted. -/
theorem writeBits_cons_of_not_admits {s : State} (b : Bit) (bs : List Bit) (h : s.admits s.wcur = false) :
    writeBits (b :: bs) s = s.raise .wrBounds := by
  have : (s.raise .wrBounds).halted = true := rfl
  simp [writeBits, writeBit_of_not_admits b h, this]

/-- Everything a run of bit writes leaves as it was: all but BUF, `WCUR` and `STATUS.FAULT`. -/
theorem writeBits_keeps (bs : List Bit) (s : State) :
    (writeBits bs s).rom = s.rom ∧ (writeBits bs s).bufBytes = s.bufBytes
      ∧ (writeBits bs s).rcur = s.rcur ∧ (writeBits bs s).res = s.res
      ∧ (writeBits bs s).dx = s.dx ∧ (writeBits bs s).pending = s.pending
      ∧ (writeBits bs s).response = s.response := by
  induction bs generalizing s with
  | nil => simp
  | cons b bs ih =>
    unfold writeBits
    rcases writeBit_cases b s with ⟨-, h⟩ | ⟨-, h⟩ <;> rw [h] <;> split
    · simp
    · simpa using ih ((s.setBufByte (byteIndex s.wcur) (byteWithBit b s)).setWcur (s.wcur + 1#32))
    · simp
    · simpa using ih (s.raise .wrBounds)

/-- The bit at address `a` after the bits `bs` were written from cursor `c` (41_bit_writer.md R72). -/
def bitAfterRun (s : State) (c : Nat) (bs : List Bit) (a : Nat) : Bit :=
  if a < c ∨ c + bs.length ≤ a then
    if bs ≠ [] ∧ (c % 8 = 0 ∨ c / 8 < a / 8) ∧ c / 8 ≤ a / 8 ∧ a / 8 * 8 < c + bs.length then 0#1 else s.bit a
  else (if c % 8 = 0 ∨ c / 8 < a / 8 then 0#1 else s.bit a) ||| bs.getD (a - c) 0#1

/-- One admitted bit, bit address by bit address. -/
theorem writeBit_bit {s : State} (b : Bit) (h : s.admits s.wcur = true) (a : Nat) :
    (writeBit b s).bit a = bitAfterRun s s.wcur.toNat [b] a := by
  rw [writeBit_of_admits b h]
  generalize hc : s.wcur.toNat = c
  have hbyte : ∀ a', (((s.setBufByte (byteIndex s.wcur) (byteWithBit b s)).setWcur (s.wcur + 1#32))).bufByte a'
      = if a' = c / 8 then byteWithBit b s else s.bufByte a' := by
    intro a'
    rw [State.bufByte_congr (State.setWcur_buf _ _), State.bufByte_setBufByte, byteIndex_eq, hc]
  unfold State.bit
  rw [hbyte]
  unfold bitAfterRun State.bit
  by_cases hb : a / 8 = c / 8
  · rw [if_pos hb]
    unfold byteWithBit byteBefore
    rw [bitIndex_eq, hc, byteIndex_eq, hc, bitOfByte_or_shift _ _ (by omega)]
    by_cases hac : a = c
    · subst hac
      have hn : ¬(a < a ∨ a + [b].length ≤ a) := by simp
      rw [if_pos rfl, if_neg hn]
      by_cases h0 : a % 8 = 0
      · simp [h0]
      · simp [h0]
    · have hmod : a % 8 ≠ c % 8 := by omega
      have hp : a < c ∨ c + [b].length ≤ a := by simp; omega
      rw [if_neg hmod, if_pos hp]
      by_cases h0 : c % 8 = 0
      · rw [if_pos h0, if_pos ⟨by simp, .inl h0, by omega, by simp; omega⟩, bitOfByte_zero]
      · rw [if_neg h0, if_neg (by omega), hb]
  · have hp : a < c ∨ c + [b].length ≤ a := by simp; omega
    have hn : ¬ ([b] ≠ [] ∧ (c % 8 = 0 ∨ c / 8 < a / 8) ∧ c / 8 ≤ a / 8 ∧ a / 8 * 8 < c + [b].length) := by
      simp; omega
    rw [if_neg hb, if_pos hp, if_neg hn]

/-- One bit and then a run is the run with that bit in front. -/
theorem bitAfterRun_cons {s s1 : State} {c : Nat} {b : Bit} (bs : List Bit)
    (h : ∀ a, s1.bit a = bitAfterRun s c [b] a) (a : Nat) :
    bitAfterRun s1 (c + 1) bs a = bitAfterRun s c (b :: bs) a := by
  rcases Nat.lt_trichotomy a c with hac | rfl | hac
  · have hl : ∀ n, a < c ∨ n ≤ a := fun n => .inl hac
    have hl1 : ∀ n, a < c + 1 ∨ n ≤ a := fun n => .inl (by omega)
    have e1 : bitAfterRun s1 (c + 1) bs a = s1.bit a := by
      unfold bitAfterRun
      rw [if_pos (hl1 _), if_neg (by omega)]
    rw [e1, h]
    unfold bitAfterRun
    rw [if_pos (hl _), if_pos (hl _)]
    simp only [List.length_cons, List.length_nil, ne_eq, List.cons_ne_nil, not_false_eq_true, true_and]
    split_ifs <;> first | rfl | omega
  · have e1 : bitAfterRun s1 (a + 1) bs a = s1.bit a := by
      unfold bitAfterRun
      rw [if_pos (.inl (by omega)), if_neg (by omega)]
    rw [e1, h]
    unfold bitAfterRun
    simp
  · obtain ⟨d, rfl⟩ : ∃ d, a = c + 1 + d := ⟨a - (c + 1), by omega⟩
    have e2 : c + 1 + d - c = d + 1 := by omega
    have e3 : c + 1 + d - (c + 1) = d := by omega
    unfold bitAfterRun
    rw [h, e2, e3]
    unfold bitAfterRun
    simp only [List.length_cons, List.length_nil, ne_eq, List.cons_ne_nil, not_false_eq_true, true_and,
      List.getD_cons_succ]
    by_cases hbs : bs = []
    · subst hbs
      simp
    · have hpos : 0 < bs.length := List.length_pos_iff.2 hbs
      simp only [hbs, not_false_eq_true, true_and]
      split_ifs <;> first | rfl | (exfalso; omega)

/-- A run of admitted bits, told whole: the cursor, the running engine, every bit of BUF, every byte beyond the run. -/
theorem writeBits_run {s : State} (bs : List Bit) (hr : s.Running) (hB : s.bufBytes ≤ 2 ^ 28)
    (hroom : s.wcur.toNat + bs.length ≤ 8 * s.bufBytes) :
    (writeBits bs s).wcur.toNat = s.wcur.toNat + bs.length ∧ (writeBits bs s).Running
      ∧ (∀ a, (writeBits bs s).bit a = bitAfterRun s s.wcur.toNat bs a)
      ∧ (∀ a, a < s.wcur.toNat / 8 ∨ s.wcur.toNat + bs.length ≤ 8 * a →
          (writeBits bs s).buf.read a = s.buf.read a) := by
  induction bs generalizing s with
  | nil =>
    refine ⟨by simp, hr, fun a => ?_, fun a _ => rfl⟩
    unfold bitAfterRun
    simp
  | cons b bs ih =>
    simp only [List.length_cons] at hroom ⊢
    have hadm : s.admits s.wcur = true := by rw [State.admits_iff]; omega
    have hsucc := State.toNat_succ hB hadm
    rw [writeBits_cons_of_admits b bs hadm hr]
    have hw : (writeBit b s).wcur = s.wcur + 1#32 := by rw [writeBit_of_admits b hadm]; rfl
    have hbB : (writeBit b s).bufBytes = s.bufBytes := by rw [writeBit_of_admits b hadm]; rfl
    have hbuf : (writeBit b s).buf = s.buf.write (byteIndex s.wcur) (byteWithBit b s) := by
      rw [writeBit_of_admits b hadm]; rfl
    obtain ⟨h1, h2, h3, h4⟩ := ih (s := writeBit b s) (writeBit_running b hadm hr) (by rw [hbB]; exact hB)
      (by rw [hw, hbB, hsucc]; omega)
    rw [hw, hsucc] at h1 h3 h4
    refine ⟨by omega, h2, fun a => ?_, fun a ha => ?_⟩
    · rw [h3 a, bitAfterRun_cons _ (writeBit_bit b hadm)]
    · rw [h4 a (by omega), hbuf, Memory.read_write_other]
      rw [byteIndex_eq]
      omega

/-- A run whose first part is admitted goes on from there. -/
theorem writeBits_append {s : State} (bs cs : List Bit) (hr : s.Running) (hB : s.bufBytes ≤ 2 ^ 28)
    (hroom : s.wcur.toNat + bs.length ≤ 8 * s.bufBytes) :
    writeBits (bs ++ cs) s = writeBits cs (writeBits bs s) := by
  induction bs generalizing s with
  | nil => rfl
  | cons b bs ih =>
    simp only [List.length_cons] at hroom
    have hadm : s.admits s.wcur = true := by rw [State.admits_iff]; omega
    rw [List.cons_append, writeBits_cons_of_admits _ _ hadm hr, writeBits_cons_of_admits _ _ hadm hr]
    have hsucc := State.toNat_succ hB hadm
    have hw := writeBit_of_admits b hadm
    refine ih (writeBit_running b hadm hr) (by rw [hw]; exact hB) ?_
    rw [hw]
    simp only [State.setWcur_wcur, State.setWcur_bufBytes, State.setBufByte_bufBytes, hsucc]
    omega

/-- A run that meets the end of BUF: the bits before it are written, then `WR_BOUNDS` (43_encoder.md R80). -/
theorem writeBits_overflow {s : State} (bs : List Bit) (b : Bit) (cs : List Bit) (hr : s.Running)
    (hB : s.bufBytes ≤ 2 ^ 28) (hend : s.wcur.toNat + bs.length = 8 * s.bufBytes) :
    writeBits (bs ++ b :: cs) s = (writeBits bs s).raise .wrBounds := by
  rw [writeBits_append bs _ hr hB (by omega)]
  refine writeBits_cons_of_not_admits _ _ ?_
  have hw := (writeBits_run bs hr hB (by omega)).1
  have hk := (writeBits_keeps bs s).2.1
  rw [← Bool.not_eq_true, State.admits_iff]
  omega

end Sys2Proof.Machine
end

