-- ==== Sys2Proof/Laws/Exec.lean ====
section
/-! SUPPORT. What `exec` answers for each command on a running engine, what a halted engine answers, what the loop of
`DEC` leaves alone, and what the invariant depends on. -/

namespace Sys2Proof.Machine

/-- A halted engine ignores every command (60_exceptions.md R97). -/
theorem exec_of_halted (i : Instr) {s : State} (h : ¬ s.Running) : exec i s = .next s := by
  cases i <;> simp only [exec, execWrbit, execRdbit, execEnc, execDec, execLksym, execLkpat,
    whenRunning_of_halted _ _ h]

theorem exec_wrbit_of_running (b : Bit) {s : State} (h : s.Running) :
    exec (.wrbit b) s = .next (writeBit b s) := by
  simp only [exec, execWrbit, whenRunning_of_running _ _ h]

theorem exec_rdbit_of_running {s : State} (h : s.Running) :
    exec .rdbit s = .next (bitToResult (readBit s)) := by
  simp only [exec, execRdbit, whenRunning_of_running _ _ h]

theorem exec_enc_of_running (sym : BitVec 24) {s : State} (h : s.Running) :
    exec (.enc sym) s = .next (encodeSymbol sym s) := by
  simp only [exec, execEnc, whenRunning_of_running _ _ h]

theorem exec_dec_of_running {s : State} (h : s.Running) :
    exec .dec s = .next (decodeLoop 12 emptyAcc s) := by
  simp only [exec, execDec, whenRunning_of_running _ _ h, Config.depthBits]

theorem exec_lksym_of_running (sym : Sym) {s : State} (h : s.Running) :
    exec (.lksym sym) s = .next (s.setRes (entryWord (lookupSym s.rom sym))) := by
  simp only [exec, execLksym, whenRunning_of_running _ _ h]

theorem exec_lkpat_of_running (pat : BitVec 12) (len : BitVec 4) {s : State} (h : s.Running) :
    exec (.lkpat pat len) s = .next (s.setRes (foundWord (lookupPat s.rom pat len))) := by
  simp only [exec, execLkpat, whenRunning_of_running _ _ h]

/-- `ENC` of a symbol on a running engine is a run of bit writes (43_encoder.md R80). -/
theorem exec_encOf_of_running (sym : Sym) {s : State} (h : s.Running) :
    exec (encOf sym) s = .next (writeBits (codeBits (s.rom.entry sym)) s) := by
  have hs : isSymbol (sym.setWidth 24) = true := by
    have := sym.isLt
    simp [isSymbol]
    omega
  have hw : (sym.setWidth 24).setWidth 8 = sym := by simp
  rw [encOf, exec_enc_of_running _ h, encodeSymbol, if_pos hs, hw, symbolBits, lookupSym]

/-- A code has as many bits as its length says (30_encoding.md R50). -/
theorem codeBits_length (s : State) (sym : Sym) : (codeBits (s.rom.entry sym)).length = s.codeLen sym := by
  simp [codeBits, State.codeLen]

/-- The bits of a code in stream order (30_encoding.md R50). -/
theorem codeBits_getElem (s : State) (sym : Sym) (i : Nat) (h : i < (codeBits (s.rom.entry sym)).length) :
    (codeBits (s.rom.entry sym))[i] = s.codeBit sym i := by
  simp [codeBits, State.codeBit]

/-- Everything the loop of `DEC` leaves as it was: all but `RCUR`, `RES` and `STATUS`. -/
theorem decodeLoop_keeps (n : Nat) (acc : Acc) (s : State) :
    (decodeLoop n acc s).rom = s.rom ∧ (decodeLoop n acc s).bufBytes = s.bufBytes
      ∧ (decodeLoop n acc s).buf = s.buf ∧ (decodeLoop n acc s).wcur = s.wcur
      ∧ (decodeLoop n acc s).pending = s.pending ∧ (decodeLoop n acc s).response = s.response := by
  induction n generalizing acc s with
  | zero => exact ⟨rfl, rfl, rfl, rfl, rfl, rfl⟩
  | succ n ih =>
    rw [decodeLoop]
    rcases readBit_cases s with ⟨-, h⟩ | ⟨-, h⟩ <;> simp only [h]
    · split
      · exact ⟨rfl, rfl, rfl, rfl, rfl, rfl⟩
      · exact ih _ _
    · exact ⟨rfl, rfl, rfl, rfl, rfl, rfl⟩

/-- The invariant depends on BUF, its size and the ROM alone. -/
theorem State.Inv.congr {s t : State} (h : s.Inv) (hrom : t.rom = s.rom) (hsize : t.bufBytes = s.bufBytes)
    (hbuf : t.buf = s.buf) : t.Inv :=
  ⟨hbuf ▸ h.canonical, by rw [hbuf, hsize]; exact h.inside, hsize ▸ h.sizePos, hsize ▸ h.sizeMax,
    hrom ▸ h.table⟩

/-- A byte written inside BUF keeps the invariant. -/
theorem State.Inv.setBufByte {s : State} (h : s.Inv) {a : Nat} (v : Byte) (ha : a < s.bufBytes) :
    (s.setBufByte a v).Inv :=
  ⟨Memory.wf_write a v h.canonical, Memory.inside_write h.inside ha, h.sizePos, h.sizeMax, h.table⟩

/-- The machine's memory out of reset is in canonical form. -/
theorem State.reset_buf_wf : State.reset.buf.wf := List.Pairwise.nil

end Sys2Proof.Machine
end

