-- ==== Sys2Proof/Laws/HostPort.lean ====
section
/-! SUPPORT. What a step is when the host has a transaction pending, and what each kind of transaction answers
(10_state.md R26 to R28). -/

namespace Sys2Proof.Machine

/-- A step performs the first pending transaction (10_state.md R28). -/
theorem step_of_pending {s : State} {tx : HostTx} {rest : List HostTx} (h : s.pending = tx :: rest) :
    step s = transact tx (s.afterTake rest) := by
  simp only [step, serveHost, h]

/-- Taking a transaction from the queue leaves the engine running or halted as it was. -/
@[simp] theorem State.running_afterTake (rest : List HostTx) (s : State) :
    (s.afterTake rest).Running ↔ s.Running := Iff.rfl

/-- A word that decodes is executed as its command (30_encoding.md R45). -/
theorem execWord_of_ok {w : Word} {i : Instr} (h : decode w = .ok i) (s : State) : execWord w s = exec i s := by
  simp only [execWord, h]

/-- A word that does not decode raises `ILLEGAL_CMD` on a running engine (30_encoding.md R49). -/
theorem execWord_of_error {w : Word} {e : DecodeError} (h : decode w = .error e) {s : State} (hr : s.Running) :
    execWord w s = .next (s.raise .illegalCmd) := by
  simp only [execWord, h, whenRunning_of_running _ _ hr]

/-- `BRD` inside BUF (20_memory.md R39). -/
theorem hostReadByte_of_lt {a : Nat} {s : State} (h : a < s.bufBytes) :
    hostReadByte a s = .next (s.respond (.byte (s.bufByte a))) := if_pos h

/-- `BRD` outside BUF (20_memory.md R39; log entry 5). -/
theorem hostReadByte_of_ge {a : Nat} {s : State} (h : s.bufBytes ≤ a) :
    hostReadByte a s = .fault (.outsideBuf a) := if_neg (Nat.not_lt.2 h)

/-- `BWR` inside BUF (20_memory.md R39). -/
theorem hostWriteByte_of_lt {a : Nat} {s : State} (v : Byte) (h : a < s.bufBytes) :
    hostWriteByte a v s = .next (s.setBufByte a v) := if_pos h

/-- `BWR` outside BUF (20_memory.md R39; log entry 5). -/
theorem hostWriteByte_of_ge {a : Nat} {s : State} (v : Byte) (h : s.bufBytes ≤ a) :
    hostWriteByte a v s = .fault (.outsideBuf a) := if_neg (Nat.not_lt.2 h)

end Sys2Proof.Machine
end

