-- ==== Sys2Proof/Laws/PerInstr.lean ====
section
/-! SUPPORT. The family `SelectsItsRow`: every command's own word selects its own row of the opcode map
(30_encoding.md R47), one lemma per command. -/

namespace Sys2Proof.Laws.SelectsItsRow

open Sys2Proof

/-- The encoding of `i` satisfies `w & mask = match` for the row of its opcode (30_encoding.md R47). -/
def Statement (i : Instr) : Prop := ∃ r ∈ opcodeTable, r.op = i.opcode ∧ r.selects (encode i) = true

theorem wrbit (bit : Bit) : Statement (.wrbit bit) := by
  refine ⟨⟨.wrbit, 0x01000000#32, 0xFFFFFFFE#32⟩, by simp [opcodeTable], rfl, ?_⟩
  rw [OpcodeRow.selects, beq_iff_eq, (opcodeMap_iff _).1, toNat_encode]
  simp only
  omega

theorem rdbit : Statement .rdbit :=
  ⟨⟨.rdbit, 0x02000000#32, 0xFFFFFFFF#32⟩, by simp [opcodeTable], rfl, by decide⟩

theorem enc (sym : BitVec 24) : Statement (.enc sym) := by
  refine ⟨⟨.enc, 0x03000000#32, 0xFF000000#32⟩, by simp [opcodeTable], rfl, ?_⟩
  rw [OpcodeRow.selects, beq_iff_eq, (opcodeMap_iff _).2.2.1, toNat_encode]
  simp only
  omega

theorem dec : Statement .dec :=
  ⟨⟨.dec, 0x04000000#32, 0xFFFFFFFF#32⟩, by simp [opcodeTable], rfl, by decide⟩

theorem lksym (sym : Sym) : Statement (.lksym sym) := by
  refine ⟨⟨.lksym, 0x05000000#32, 0xFFFFFF00#32⟩, by simp [opcodeTable], rfl, ?_⟩
  rw [OpcodeRow.selects, beq_iff_eq, (opcodeMap_iff _).2.2.2.2.1, toNat_encode]
  simp only
  omega

theorem lkpat (pat : BitVec 12) (len : BitVec 4) : Statement (.lkpat pat len) := by
  refine ⟨⟨.lkpat, 0x06000000#32, 0xFFFF0000#32⟩, by simp [opcodeTable], rfl, ?_⟩
  rw [OpcodeRow.selects, beq_iff_eq, (opcodeMap_iff _).2.2.2.2.2, toNat_encode]
  simp only
  omega

end Sys2Proof.Laws.SelectsItsRow
end

