-- ==== Sys2Proof/Laws/Stream.lean ====
section
/-! SUPPORT. A run of bits on any ground and on fresh ground (41_bit_writer.md R72, 70_reset_and_hazards.md R119), and
that at most one code lies at a bit address (44_decoder.md R89). -/

namespace Sys2Proof.Machine

/-- Bit `m` of a run at bit address `c + m`, on any ground (41_bit_writer.md R72). -/
theorem bitAfterRun_getElem (s : State) (c : Nat) (bs : List Bit) {m : Nat} (hm : m < bs.length) :
    bitAfterRun s c bs (c + m) = (if c % 8 = 0 ∨ c / 8 < (c + m) / 8 then 0#1 else s.bit (c + m)) ||| bs[m] := by
  have e : c + m - c = m := by omega
  have hget : bs.getD m 0#1 = bs[m] := by simp [hm]
  rw [bitAfterRun, if_neg (by omega), e, hget]

/-- The bits below a run in its first byte are kept (41_bit_writer.md R72 b). -/
theorem bitAfterRun_below (s : State) {c a : Nat} (bs : List Bit) (ha : a < c) (hd : a / 8 = c / 8) :
    bitAfterRun s c bs a = s.bit a := by
  rw [bitAfterRun, if_pos (.inl ha), if_neg (by omega)]

/-- The bits above a run in its last byte: 0, or kept where the byte was not entered at bit index 0
(41_bit_writer.md R72). -/
theorem bitAfterRun_above (s : State) {c a : Nat} {bs : List Bit} (hne : bs ≠ []) (ha : c + bs.length ≤ a)
    (hd : a / 8 = (c + bs.length - 1) / 8) :
    bitAfterRun s c bs a = if c % 8 = 0 ∨ c / 8 < a / 8 then 0#1 else s.bit a := by
  have hpos : 0 < bs.length := List.length_pos_iff.2 hne
  rw [bitAfterRun, if_pos (.inr ha)]
  refine if_congr ⟨fun h => h.2.1, fun h => ⟨hne, h, by omega, by omega⟩⟩ rfl rfl

/-- On fresh ground bit `m` of a run lies at bit address `c + m`. -/
theorem bitAfterRun_of_fresh {s : State} {c : Nat} {bs : List Bit} (hf : s.FreshAt c) {m : Nat}
    (hm : m < bs.length) : bitAfterRun s c bs (c + m) = bs[m] := by
  rw [bitAfterRun_getElem s c bs hm]
  split
  · simp
  · rename_i h
    rcases hf with hf | hf
    · omega
    · have := hf ((c + m) % 8) (by omega) (by omega)
      rw [State.bit, show (c + m) / 8 = c / 8 by omega, this]
      simp

/-- After a run on fresh ground the bits above it in its last byte are 0. -/
theorem bitAfterRun_above_fresh {s : State} {c : Nat} {bs : List Bit} (hf : s.FreshAt c) (hne : bs ≠ [])
    {a : Nat} (ha : c + bs.length ≤ a) (hd : a / 8 = (c + bs.length - 1) / 8) :
    bitAfterRun s c bs a = 0#1 := by
  have hpos : 0 < bs.length := List.length_pos_iff.2 hne
  rw [bitAfterRun_above s hne ha hd]
  split
  · rfl
  · rcases hf with hf | hf
    · omega
    · have := hf (a % 8) (by omega) (by omega)
      rw [State.bit, show a / 8 = c / 8 by omega, this]

/-- In an admissible table at most one symbol's code lies at a bit address (44_decoder.md R89). -/
theorem codeAt_unique {s : State} (ht : s.rom.Admissible) {c : Nat} {a b : Sym} (ha : s.CodeAt c a)
    (hb : s.CodeAt c b) : a = b := by
  have key : ∀ a b : Sym, s.codeLen a ≤ s.codeLen b → s.CodeAt c a → s.CodeAt c b → a = b := by
    intro a b hl ha hb
    by_contra hab
    refine ht.prefixFree a b hab hl (Nat.eq_of_testBit_eq fun i => ?_)
    simp only [Nat.testBit_mod_two_pow]
    by_cases hi : i < (s.rom.entry a).len.toNat
    · have e := (ha i hi).symm.trans (hb i (Nat.lt_of_lt_of_le hi hl))
      have := congrArg (fun v => v.getLsbD 0) e
      simp [State.codeBit] at this
      simp only [hi, decide_true, Bool.true_and]
      exact this.symm
    · simp [hi]
  rcases Nat.le_total (s.codeLen a) (s.codeLen b) with h | h
  · exact key a b h ha hb
  · exact (key b a h hb ha).symm

/-- A code depends on the bits it covers and on the ROM alone. -/
theorem codeAt_congr {s t : State} (hr : t.rom = s.rom) {sym : Sym} {a : Nat}
    (h : ∀ i, i < s.codeLen sym → t.bit (a + i) = s.bit (a + i)) : t.CodeAt a sym ↔ s.CodeAt a sym := by
  unfold State.CodeAt State.codeLen State.codeBit
  rw [hr]
  exact ⟨fun ht i hi => (h i hi).symm.trans (ht i hi), fun hs i hi => (h i hi).trans (hs i hi)⟩

end Sys2Proof.Machine
end

