-- ==== Sys2Proof/Tests/Slice0.lean ====
section
/-! SUPPORT. The model's own tests. Expected values come from 95_test_vectors.md (named in each comment) or from the
spec's rules. After the tests, for every statement with hypotheses a theorem `witness_<statement>` shows concrete
terms that meet them. -/

namespace Sys2Proof.Tests

open Sys2Proof Sys2Proof.Machine

/-- A small machine: fixture T1, a BUF of exactly the given bytes, two cursors, the host's transactions. -/
def tiny (bytes : List Byte) (w r : Nat) (pending : List HostTx) : State where
  rom := fixtureT1
  bufBytes := bytes.length
  buf := (List.range bytes.length).zip bytes
  wcur := BitVec.ofNat 32 w
  rcur := BitVec.ofNat 32 r
  res := 0#32
  fault := .noFault
  dx := false
  pending := pending
  response := none

/-- The same machine, halted by `SYM_RANGE`. -/
def tinyHalted (bytes : List Byte) (pending : List HostTx) : State := (tiny bytes 0 0 pending).raise .symRange

/-- What a view of the next state shows, if there is one. -/
def look {α : Type} (f : State → α) : Host.Outcome State Fault Refusal → Option α
  | .next s => some (f s)
  | .fault _ => none
  | .refused _ => none

/-- The bytes of BUF, the two cursors, `RES` and `STATUS`: the columns of 95_test_vectors.md. -/
def columns (s : State) : List Byte × Nat × Nat × Nat × Nat :=
  (s.buf.map Prod.snd, s.wcur.toNat, s.rcur.toNat, s.res.toNat, s.statusWord.toNat)

/-- The addresses of a small machine's BUF. -/
theorem tiny_keys (bytes : List Byte) :
    ((List.range bytes.length).zip bytes).map Prod.fst = List.range bytes.length :=
  List.map_fst_zip (by simp)

/-- A small machine with a BUF of an admissible size satisfies the invariant. -/
theorem tiny_inv (bytes : List Byte) (w r : Nat) (pending : List HostTx) (h1 : 1 ≤ bytes.length)
    (h2 : bytes.length ≤ 2 ^ 28) : (tiny bytes w r pending).Inv where
  canonical := by
    have h : (((List.range bytes.length).zip bytes).map Prod.fst).Pairwise (· < ·) := by
      rw [tiny_keys]
      exact List.pairwise_lt_range
    exact List.pairwise_map.1 h
  inside := by
    intro c hc
    have : c.1 ∈ ((List.range bytes.length).zip bytes).map Prod.fst := List.mem_map_of_mem hc
    rw [tiny_keys] at this
    exact List.mem_range.1 this
  sizePos := h1
  sizeMax := h2
  table := fixtureT1_admissible

/-! ### Ill-formed terms are refused -/

/-- BUF accesses outside `0 <= addr < BUF_BYTES` (20_memory.md R39). -/
theorem test_transaction_outside_buf_is_ill_formed :
    (HostTx.brd 2).wf 2 = false ∧ (HostTx.bwr 2 0#8).wf 2 = false ∧ (HostTx.brd 1).wf 2 = true := by decide

/-- Literals outside the ranges of 30_encoding.md R52. -/
theorem test_literals_out_of_range_are_ill_formed :
    (AsmLine.wrbit 2).wf = false ∧ (AsmLine.enc (2 ^ 24)).wf = false ∧ (AsmLine.enc (-2 ^ 23 - 1)).wf = false
    ∧ (AsmLine.lksym 256).wf = false ∧ (AsmLine.lkpat 4096 0).wf = false ∧ (AsmLine.lkpat 0 16).wf = false := by
  decide

/-- A table of 256 equal entries. -/
def flat (pat len : Nat) : Table := Vector.replicate 256 ⟨BitVec.ofNat 11 pat, BitVec.ofNat 4 len⟩

/-- W2: a length of 1, and a length of 12 (10_state.md R12). -/
theorem test_length_out_of_range_is_inadmissible :
    ¬ (flat 0 1).LengthsInRange ∧ ¬ (flat 0 12).LengthsInRange :=
  ⟨fun h => absurd (h 0#8) (by decide +kernel), fun h => absurd (h 0#8) (by decide +kernel)⟩

/-- W3: neither extreme attained (10_state.md R12). -/
theorem test_missing_extreme_is_inadmissible :
    ¬ (flat 0 2).ExtremesAttained ∧ ¬ (flat 0 11).ExtremesAttained := by decide +kernel

/-- W4: a pattern bit at the length (10_state.md R12). -/
theorem test_unnormalised_pattern_is_inadmissible : ¬ (flat 4 2).Normalised :=
  fun h => absurd (h 0#8) (by decide +kernel)

/-- W5: two symbols with one entry (10_state.md R12). -/
theorem test_duplicate_entry_is_inadmissible : ¬ (flat 0 2).NoDuplicates :=
  fun h => h 0#8 1#8 (by decide) (by decide +kernel)

/-- W6: symbol 1's code `"0000"` begins with symbol 0's code `"00"` (10_state.md R12). -/
theorem test_prefix_is_inadmissible : ¬ Table.PrefixFree (fixtureT1.set 1 ⟨0#11, 4#4⟩) :=
  fun h => absurd (h 0#8 1#8 (by decide) (by decide +kernel)) (by decide +kernel)

/-- T1's closed form, `v = ((k + 4) << k) | (s & mask(k))` reversed, gives the listing (95_test_vectors.md
section 2). -/
theorem test_fixture_listing_is_its_closed_form :
    ∀ s : Sym, s ≠ 0#8 →
      fixtureT1.entry s = CodeEntry.ofPair
        (reverseBits (Nat.log2 s.toNat + 4)
          ((Nat.log2 s.toNat + 4) * 2 ^ Nat.log2 s.toNat + s.toNat % 2 ^ Nat.log2 s.toNat), Nat.log2 s.toNat + 4) := by
  decide +kernel

/-! ### Decoding words written out from 30_encoding.md R46 and R47 -/

/-- Format B: opcode 0x01, `w[23:1]` zero, the bit in `w[0]`. -/
theorem test_decode_wrbit :
    decode 0b00000001_00000000_00000000_00000001#32 = .ok (.wrbit 1#1)
    ∧ decode 0b00000001_00000000_00000000_00000010#32 = .error (.reservedBits .wrbit) := by decide

/-- Format N: opcode 0x02, no operand. -/
theorem test_decode_rdbit :
    decode 0b00000010_00000000_00000000_00000000#32 = .ok .rdbit
    ∧ decode 0b00000010_10000000_00000000_00000000#32 = .error (.reservedBits .rdbit) := by decide

/-- Format S24: opcode 0x03, the operand the whole 24-bit field. -/
theorem test_decode_enc :
    decode 0b00000011_00000000_00000000_01000001#32 = .ok (.enc 65#24)
    ∧ decode 0b00000011_10000000_00000001_00000000#32 = .ok (.enc 0x800100#24) := by decide

/-- Format N: opcode 0x04, no operand. -/
theorem test_decode_dec :
    decode 0b00000100_00000000_00000000_00000000#32 = .ok .dec
    ∧ decode 0b00000100_00000000_00000000_00000001#32 = .error (.reservedBits .dec) := by decide

/-- Format S8: opcode 0x05, the symbol in `w[7:0]`. -/
theorem test_decode_lksym :
    decode 0b00000101_00000000_00000000_11111111#32 = .ok (.lksym 255#8)
    ∧ decode 0b00000101_00000000_00000001_00000000#32 = .error (.reservedBits .lksym) := by decide

/-- Format P: opcode 0x06, the length in `w[15:12]`, the pattern in `w[11:0]`. -/
theorem test_decode_lkpat :
    decode 0b00000110_00000000_1011_011111111101#32 = .ok (.lkpat 0x7FD#12 11#4)
    ∧ decode 0b00000110_00000001_0000_000000000000#32 = .error (.reservedBits .lkpat) := by decide

/-- Opcodes 0x00, 0x07 and 0xFF (30_encoding.md R49; V8.4). -/
theorem test_unknown_opcodes_are_rejected :
    decode 0x00000000#32 = .error (.unknownOpcode 0#8) ∧ decode 0x07000000#32 = .error (.unknownOpcode 7#8)
    ∧ decode 0xFF000000#32 = .error (.unknownOpcode 0xFF#8) := by decide

/-- A word numbered as opcode_table.json numbers it: one 32-bit word. -/
theorem test_decodeTableWord :
    decodeTableWord 32 0x0600A205 = some (.lkpat 0x205#12 10#4) ∧ decodeTableWord 32 0 = none := by decide

/-! ### One step each, on T1 -/

/-- V1.1 and V1.3: a bit at a byte boundary clears the byte; a 0 inside a byte changes nothing but the cursor. -/
theorem test_wrbit :
    look columns (step (tiny [0xFF, 0xFF] 0 0 [.hwr .cmd 0x01000001#32])) = some ([0x01, 0xFF], 1, 0, 0, 0)
    ∧ look columns (step (tiny [0xFF, 0xFF] 3 0 [.hwr .cmd 0x01000000#32])) = some ([0xFF, 0xFF], 4, 0, 0, 0) := by
  decide +kernel

/-- V1.7: the last admitted bit address, then `WR_BOUNDS`. -/
theorem test_wrbit_bounds :
    look columns (step (tiny [0x00, 0x00] 15 0 [.hwr .cmd 0x01000001#32])) = some ([0x00, 0x80], 16, 0, 0, 0)
    ∧ look columns (step (tiny [0x00, 0x80] 16 0 [.hwr .cmd 0x01000001#32])) = some ([0x00, 0x80], 16, 0, 0, 2) := by
  decide +kernel

/-- V2.1, sixth read, and V2.2: a read depends on `RCUR` alone. -/
theorem test_rdbit :
    look columns (step (tiny [0xA5, 0x01] 0 5 [.hwr .cmd 0x02000000#32])) = some ([0xA5, 0x01], 0, 6, 1, 0)
    ∧ look columns (step (tiny [0x80] 5 7 [.hwr .cmd 0x02000000#32])) = some ([0x80], 5, 8, 1, 0) := by
  decide +kernel

/-- V2.1, the seventeenth read: `RD_BOUNDS`. -/
theorem test_rdbit_bounds :
    look columns (step (tiny [0xA5, 0x01] 0 16 [.hwr .cmd 0x02000000#32])) = some ([0xA5, 0x01], 0, 16, 0, 3) := by
  decide +kernel

/-- V5.6: an 11-bit code from bit index 6 touches three bytes; V8.3: `SYM_RANGE` before `WR_BOUNDS`. -/
theorem test_enc :
    look columns (step (tiny [0x00, 0xAA, 0xAA, 0xAA] 6 0 [.hwr .cmd 0x030000FF#32]))
      = some ([0x40, 0xFF, 0x01, 0xAA], 17, 0, 0, 0)
    ∧ look columns (step (tiny [0xAA, 0xAA, 0xAA, 0xAA] 32 0 [.hwr .cmd 0x03000100#32]))
      = some ([0xAA, 0xAA, 0xAA, 0xAA], 32, 0, 0, 1) := by
  decide +kernel

/-- V5.9 and V5.10: a code that ends on the last bit of BUF, and one bit too far. -/
theorem test_enc_at_the_end :
    look columns (step (tiny [0xAA, 0xAA, 0xAA, 0xAA] 21 0 [.hwr .cmd 0x030000FF#32]))
      = some ([0xAA, 0xAA, 0xAA, 0xFF], 32, 0, 0, 0)
    ∧ look columns (step (tiny [0xAA, 0xAA, 0xAA, 0xAA] 22 0 [.hwr .cmd 0x030000FF#32]))
      = some ([0xAA, 0xAA, 0xEA, 0xFF], 32, 0, 0, 2) := by
  decide +kernel

/-- V6.3: an 11-bit code is found on the eleventh bit; V4.1: no early stop on an equal integer at a shorter length. -/
theorem test_dec_resolved :
    look columns (step (tiny [0xFD, 0x07] 0 0 [.hwr .cmd 0x04000000#32])) = some ([0xFD, 0x07], 0, 11, 0xFF, 0)
    ∧ look columns (step (tiny [0x02] 0 0 [.hwr .cmd 0x04000000#32])) = some ([0x02], 0, 4, 1, 0) := by
  decide +kernel

/-- V7.5 and V7.4: exactly twelve bits, Depth-Exceeded; eleven bits, `RD_BOUNDS`. -/
theorem test_dec_unresolved :
    look columns (step (tiny [0xFF, 0xFF] 0 4 [.hwr .cmd 0x04000000#32])) = some ([0xFF, 0xFF], 0, 16, 0, 8)
    ∧ look columns (step (tiny [0xFF, 0xFF] 0 5 [.hwr .cmd 0x04000000#32])) = some ([0xFF, 0xFF], 0, 16, 0, 3) := by
  decide +kernel

/-- V3: `LKSYM 65` and `LKSYM 255`. -/
theorem test_lksym :
    look columns (step (tiny [0x00] 0 0 [.hwr .cmd 0x05000041#32])) = some ([0x00], 0, 0, 0xA205, 0)
    ∧ look columns (step (tiny [0x00] 0 0 [.hwr .cmd 0x050000FF#32])) = some ([0x00], 0, 0, 0xB7FD, 0) := by
  decide +kernel

/-- V4: symbol 0 found differs from not found only in bit 8. -/
theorem test_lkpat_found :
    look columns (step (tiny [0x00] 0 0 [.hwr .cmd 0x06002000#32])) = some ([0x00], 0, 0, 0x100, 0)
    ∧ look columns (step (tiny [0x00] 0 0 [.hwr .cmd 0x0600B7FD#32])) = some ([0x00], 0, 0, 0x1FF, 0) := by
  decide +kernel

/-- V4: the same integer at another length, and bit 11 of the pattern set. -/
theorem test_lkpat_not_found :
    look columns (step (tiny [0x00] 0 0 [.hwr .cmd 0x06002002#32])) = some ([0x00], 0, 0, 0, 0)
    ∧ look columns (step (tiny [0x00] 0 0 [.hwr .cmd 0x0600BFFD#32])) = some ([0x00], 0, 0, 0, 0) := by
  decide +kernel

/-- V8.4: an all-zero word is illegal. -/
theorem test_illegal_word :
    look columns (step (tiny [0x00] 0 0 [.hwr .cmd 0x00000000#32])) = some ([0x00], 0, 0, 0, 4) := by decide +kernel

/-- V8.1: halted, a cursor write is ignored, and `STATUS` reads 1. -/
theorem test_halted :
    look columns (step (tinyHalted [0xAA] [.hwr .wcur 8#32])) = some ([0xAA], 0, 0, 0, 1)
    ∧ look (fun s => s.response) (step (tinyHalted [0xAA] [.hrd .status])) = some (some (.word 1#32)) := by
  decide +kernel

/-- V8.5: reset clears the fault and the registers, not BUF. -/
theorem test_reset :
    look columns (step ((tiny [0xAA, 0xAA] 9 5 [.reset]).raise .rdBounds)) = some ([0xAA, 0xAA], 0, 0, 0, 0) := by
  decide +kernel

/-- A host access at `BUF_BYTES` stops the model under its own name (20_memory.md R39). -/
theorem test_access_outside_buf :
    step (tiny [0x00, 0x00] 0 0 [.brd 2]) = .fault (.outsideBuf 2)
    ∧ step (tiny [0x00, 0x00] 0 0 [.bwr 2 1#8]) = .fault (.outsideBuf 2) := ⟨rfl, rfl⟩

/-- The first command after reset runs: `WRBIT 1` reaches the write cursor (10_state.md R24, 30_encoding.md R45). -/
theorem test_first_command_runs :
    step (State.reset.withFetchWord 32 0x01000001) = exec (.wrbit 1#1) State.reset := rfl

/-! ### Witnesses: the hypotheses of each statement can be met together -/

theorem witness_DecodeOfEncodeIsTheCommand :
    (Instr.enc 0xFFFFFF#24).wf = true ∧ (Instr.lkpat 0xFFF#12 15#4).wf = true :=
  ⟨rfl, rfl⟩

theorem witness_EncodeOfDecodeIsTheWord : decode 0x0600FFFF#32 = .ok (.lkpat 0xFFF#12 15#4) := by decide

theorem witness_OpcodeMapSelectsTheCommands :
    0x01000001#32 &&& 0xFFFFFFFE#32 = 0x01000000#32 ∧ 0x02000000#32 &&& 0xFFFFFFFF#32 = 0x02000000#32
    ∧ 0x03FFFFFF#32 &&& 0xFF000000#32 = 0x03000000#32 ∧ 0x04000000#32 &&& 0xFFFFFFFF#32 = 0x04000000#32
    ∧ 0x050000FF#32 &&& 0xFFFFFF00#32 = 0x05000000#32 ∧ 0x0600FFFF#32 &&& 0xFFFF0000#32 = 0x06000000#32
    ∧ (∃ r ∈ opcodeTable, r.selects 0x0600FFFF#32 = true) ∧ (∃ e, decode 0x06010000#32 = .error e) :=
  ⟨by decide, by decide, by decide, by decide, by decide, by decide, by decide, ⟨_, rfl⟩⟩

theorem witness_IllegalWordsRaiseIllegalCmd :
    (∃ e, decode 0x01000002#32 = .error e) ∧ (∃ e, decode 0x00000000#32 = .error e)
    ∧ (tiny [0x00] 0 0 []).Running :=
  ⟨⟨_, rfl⟩, ⟨_, rfl⟩, rfl⟩

theorem witness_AssemblerLinesStandForTheirCommands :
    (AsmLine.wrbit 1).wf = true ∧ (AsmLine.enc (2 ^ 24 - 1)).wf = true ∧ (AsmLine.enc (-2 ^ 23)).wf = true
    ∧ (AsmLine.lksym 255).wf = true ∧ (AsmLine.lkpat 4095 15).wf = true := by decide

/-- An offset between two registers and the first beyond the last. -/
theorem witness_OffsetsNameTheFiveRegisters :
    0x01 ∉ [0x00, 0x04, 0x08, 0x0C, 0x10] ∧ 0x14 ∉ [0x00, 0x04, 0x08, 0x0C, 0x10] := by decide

theorem witness_StepPerformsTheNextTransaction :
    (tiny [0x00] 0 0 [.reset, .hrd .res]).pending = .reset :: [.hrd .res] := rfl

theorem witness_StepRunsTheDecodedCommand :
    (tiny [0x00] 0 0 [.hwr .cmd 0x04000000#32]).pending = .hwr .cmd 0x04000000#32 :: []
    ∧ decode 0x04000000#32 = .ok .dec := ⟨rfl, by decide⟩

theorem witness_IdleEngineStaysAsItIs : (tiny [0x00] 0 0 []).pending = [] := rfl

theorem witness_TransactionsLeaveTheHostsQueue :
    (∃ t, transact (.hwr .wcur 8#32) (tiny [0x00] 0 0 [.reset]) = .next t)
    ∧ (∀ reg, HostTx.hwr .wcur 8#32 ≠ .hrd reg) ∧ (∀ a, HostTx.hwr .wcur 8#32 ≠ .brd a) :=
  ⟨⟨_, rfl⟩, nofun, nofun⟩

theorem witness_HostWritesReplaceCursorsAndRunCommands :
    (tiny [0x00] 0 0 []).Running ∧ decode 0x02000000#32 = .ok .rdbit ∧ (∃ e, decode 0x07000000#32 = .error e)
    ∧ ¬ (tinyHalted [0x00] []).Running :=
  ⟨rfl, by decide, ⟨_, rfl⟩, nofun⟩

/-- The first and the last byte of BUF. -/
theorem witness_HostReachesEveryBufByte :
    0 < (tiny [0x00, 0x00] 0 0 []).bufBytes ∧ 1 < (tiny [0x00, 0x00] 0 0 []).bufBytes := by decide

/-- The first address beyond BUF. -/
theorem witness_OnlyHostAccessOutsideBufStops :
    (tiny [0x00, 0x00] 0 0 [.brd 2]).bufBytes ≤ 2 ∧ (tiny [0x00, 0x00] 0 0 [.brd 2]).pending = .brd 2 :: [] :=
  ⟨by decide, rfl⟩

theorem witness_HaltedEngineIgnoresTheHost :
    ¬ (tinyHalted [0x00, 0x00] []).Running ∧ 1 < (tinyHalted [0x00, 0x00] []).bufBytes := ⟨nofun, by decide⟩

theorem witness_OnlyResetClearsAFault :
    ¬ (tinyHalted [0x00] []).Running ∧ (∃ t, transact (.bwr 0 1#8) (tinyHalted [0x00] []) = .next t)
    ∧ HostTx.bwr 0 1#8 ≠ .reset ∧ (∃ t, transact .reset (tinyHalted [0x00] []) = .next t) :=
  ⟨nofun, ⟨_, rfl⟩, nofun, ⟨_, rfl⟩⟩

/-- `ENC 256`, the least operand out of range, and an illegal word. -/
theorem witness_FaultTestsComeInOrder :
    ¬ (tinyHalted [0x00] []).Running ∧ (tiny [0x00] 8 0 []).Running ∧ (∃ e, decode 0x00000000#32 = .error e)
    ∧ 256 ≤ (256#24).toNat ∧ decode 0x03000100#32 = .ok (.enc 256#24) :=
  ⟨nofun, rfl, ⟨_, rfl⟩, by decide, by decide⟩

/-- The last admitted cursor, the first that is not, and both kinds of word. -/
theorem witness_WrbitWritesOneBit :
    (0x01000001#32).extractLsb' 24 8 = 0x01#8 ∧ (0x01000001#32).extractLsb' 1 23 = 0#23
    ∧ (0x01000002#32).extractLsb' 24 8 = 0x01#8 ∧ (0x01000002#32).extractLsb' 1 23 ≠ 0#23
    ∧ (tiny [0x00] 7 0 []).Running ∧ byteIndex (tiny [0x00] 7 0 []).wcur < (tiny [0x00] 7 0 []).bufBytes
    ∧ (tiny [0x00] 8 0 []).bufBytes ≤ byteIndex (tiny [0x00] 8 0 []).wcur ∧ ¬ (tinyHalted [0x00] []).Running :=
  ⟨by decide, by decide, by decide, by decide, rfl, by decide, by decide, nofun⟩

theorem witness_RdbitReadsOneBit :
    (0x02000000#32).extractLsb' 24 8 = 0x02#8 ∧ (0x02000000#32).extractLsb' 0 24 = 0#24
    ∧ (0x02000001#32).extractLsb' 24 8 = 0x02#8 ∧ (0x02000001#32).extractLsb' 0 24 ≠ 0#24
    ∧ (tiny [0x00] 0 7 []).Running ∧ byteIndex (tiny [0x00] 0 7 []).rcur < (tiny [0x00] 0 7 []).bufBytes
    ∧ (tiny [0x00] 0 8 []).bufBytes ≤ byteIndex (tiny [0x00] 0 8 []).rcur ∧ ¬ (tinyHalted [0x00] []).Running :=
  ⟨by decide, by decide, by decide, by decide, rfl, by decide, by decide, nofun⟩

/-- Six bits from bit address 3: bit 0 lands in the byte entered at index 3, bit 5 in the next byte, address 15 lies
beyond the run in its last byte. Two bits from 3: address 7 lies beyond the run in the byte entered at index 3. -/
theorem witness_BitRunsLandAtTheirAddresses :
    (tiny [0xFF, 0xFF] 3 0 []).Inv ∧ (tiny [0xFF, 0xFF] 3 0 []).Running
    ∧ (tiny [0xFF, 0xFF] 3 0 []).wcur.toNat + [1#1, 0#1, 1#1, 0#1, 1#1, 0#1].length
        ≤ 8 * (tiny [0xFF, 0xFF] 3 0 []).bufBytes
    ∧ (3 % 8 ≠ 0 ∧ (3 + 0) / 8 = 3 / 8) ∧ 3 / 8 < (3 + 5) / 8
    ∧ (3 + 6 ≤ 15 ∧ 15 / 8 = (3 + 6 - 1) / 8 ∧ 3 / 8 < 15 / 8)
    ∧ (3 + 2 ≤ 7 ∧ 7 / 8 = (3 + 2 - 1) / 8 ∧ 7 / 8 = 3 / 8) :=
  ⟨tiny_inv _ _ _ _ (by decide) (by decide), rfl, by decide, by decide, by decide, by decide, by decide⟩

/-- Fresh by alignment, and fresh by clean bits: bit address 3 of the byte 0x07. The run ends on the last bit. -/
theorem witness_BitsReadBackAsWritten :
    (tiny [0xFF] 0 0 []).Inv ∧ (tiny [0xFF] 0 0 []).Running ∧ (tiny [0xFF] 0 0 []).FreshAt 0
    ∧ (tiny [0xFF] 0 0 []).wcur.toNat + (List.replicate 8 1#1).length ≤ 8 * (tiny [0xFF] 0 0 []).bufBytes
    ∧ (tiny [0x07] 3 0 []).Inv ∧ (tiny [0x07] 3 0 []).FreshAt 3
    ∧ (tiny [0x07] 3 0 []).wcur.toNat + (List.replicate 5 1#1).length ≤ 8 * (tiny [0x07] 3 0 []).bufBytes :=
  ⟨tiny_inv _ _ _ _ (by decide) (by decide), rfl, .inl rfl, by decide,
    tiny_inv _ _ _ _ (by decide) (by decide), .inr (fun k h1 h2 => by
      have : k = 3 ∨ k = 4 ∨ k = 5 ∨ k = 6 ∨ k = 7 := by omega
      rcases this with rfl | rfl | rfl | rfl | rfl <;> decide), by decide⟩

/-- Both clauses at bit index 7, the last of the only byte. -/
theorem witness_WrittenBytesAreSeenAtOnce :
    (tiny [0x00] 7 7 []).Running ∧ byteIndex (tiny [0x00] 7 7 []).rcur < (tiny [0x00] 7 7 []).bufBytes
    ∧ (tiny [0x00] 7 7 [.bwr 0 0x80#8, AsmLine.rdbit.transaction]).pending
        = .bwr (byteIndex (tiny [0x00] 7 7 []).rcur) 0x80#8 :: AsmLine.rdbit.transaction :: []
    ∧ byteIndex (tiny [0x00] 7 7 []).wcur < (tiny [0x00] 7 7 []).bufBytes
    ∧ (tiny [0x00] 7 7 [(AsmLine.wrbit 1).transaction, .brd 0]).pending
        = (AsmLine.wrbit (1#1).toNat).transaction :: .brd (byteIndex (tiny [0x00] 7 7 []).wcur) :: [] :=
  ⟨rfl, by decide, by decide, by decide, by decide⟩

theorem witness_LksymReturnsTheEntry :
    (0x050000FF#32).extractLsb' 24 8 = 0x05#8 ∧ (0x050000FF#32).extractLsb' 8 16 = 0#16
    ∧ (0x05000100#32).extractLsb' 24 8 = 0x05#8 ∧ (0x05000100#32).extractLsb' 8 16 ≠ 0#16
    ∧ (tiny [0x00] 0 0 []).Running ∧ ¬ (tinyHalted [0x00] []).Running ∧ (tiny [0x00] 0 0 []).rom.Admissible :=
  ⟨by decide, by decide, by decide, by decide, rfl, nofun, fixtureT1_admissible⟩

/-- Found: symbol 255. Not found: the same integer at length 10. Never found: lengths 1 and 12, a pattern of 2^len. -/
theorem witness_LkpatSearchesTheTable :
    (0x0600FFFF#32).extractLsb' 24 8 = 0x06#8 ∧ (0x0600FFFF#32).extractLsb' 16 8 = 0#8
    ∧ (0x06010000#32).extractLsb' 24 8 = 0x06#8 ∧ (0x06010000#32).extractLsb' 16 8 ≠ 0#8
    ∧ (tiny [0x00] 0 0 []).rom.Admissible ∧ (tiny [0x00] 0 0 []).Running ∧ ¬ (tinyHalted [0x00] []).Running
    ∧ ((fixtureT1.entry 255#8).len = 11#4 ∧ (fixtureT1.entry 255#8).pat.setWidth 12 = 0x7FD#12)
    ∧ (∀ sym : Sym, (fixtureT1.entry sym).len = 10#4 → (fixtureT1.entry sym).pat.setWidth 12 ≠ 0x7FD#12)
    ∧ ((1#4).toNat < 2 ∧ 11 < (12#4).toNat ∧ 2 ^ (2#4).toNat ≤ (4#12).toNat) :=
  ⟨by decide, by decide, by decide, by decide, fixtureT1_admissible, rfl, nofun, by decide +kernel,
    by decide +kernel, by decide⟩

theorem witness_LookupFindsExactlyTheEntries :
    fixtureT1.Admissible ∧ lookupPat fixtureT1 0x7FD#12 11#4 = some 255#8 ∧ (1#4).toNat < 2 ∧ 11 < (12#4).toNat :=
  ⟨fixtureT1_admissible, by decide +kernel, by decide, by decide⟩

theorem witness_SearchDirectionCannotBeObserved : fixtureT1.Admissible := fixtureT1_admissible

theorem witness_LksymThenLkpatFindsTheSymbol :
    (tiny [0x00] 0 0 []).Running ∧ (tiny [0x00] 0 0 []).rom.Admissible := ⟨rfl, fixtureT1_admissible⟩

theorem witness_RomPackingsLoseNothing : fixtureT1.Admissible := fixtureT1_admissible

/-- Symbol 255 from bit address 21 ends on the last bit of a BUF of four bytes (V5.9); bits 21 to 23
are clean in 0x00. -/
theorem witness_EncWritesTheCode :
    (tiny [0xAA, 0xAA, 0x00, 0xAA] 21 0 []).Inv ∧ (tiny [0xAA, 0xAA, 0x00, 0xAA] 21 0 []).Running
    ∧ (tiny [0xAA, 0xAA, 0x00, 0xAA] 21 0 []).wcur.toNat + (tiny [0xAA, 0xAA, 0x00, 0xAA] 21 0 []).codeLen 255#8
        = 8 * (tiny [0xAA, 0xAA, 0x00, 0xAA] 21 0 []).bufBytes
    ∧ (tiny [0xAA, 0xAA, 0x00, 0xAA] 21 0 []).FreshAt 21 :=
  ⟨tiny_inv _ _ _ _ (by decide) (by decide), rfl, by decide +kernel, .inr (fun k h1 h2 => by
    have : k = 5 ∨ k = 6 ∨ k = 7 := by omega
    rcases this with rfl | rfl | rfl <;> decide)⟩

/-- V5.8: ground that is not fresh, bit address 3 of 0xFF. Symbol 0's code lies at 3 and 4, address 2 below it in its
first byte and address 7 above it in the same byte. -/
theorem witness_EncWritesTheCode_on_dirty_ground :
    (tiny [0xFF] 3 0 []).Inv ∧ (tiny [0xFF] 3 0 []).Running
    ∧ (tiny [0xFF] 3 0 []).wcur.toNat + (tiny [0xFF] 3 0 []).codeLen 0#8 ≤ 8 * (tiny [0xFF] 3 0 []).bufBytes
    ∧ (tiny [0xFF] 3 0 []).codeLen 0#8 = 2 ∧ (3 % 8 ≠ 0 ∧ (3 + 1) / 8 = 3 / 8) ∧ (2 < 3 ∧ 2 / 8 = 3 / 8)
    ∧ (3 + 2 ≤ 7 ∧ 7 / 8 = (3 + 2 - 1) / 8 ∧ 7 / 8 = 3 / 8) :=
  ⟨tiny_inv _ _ _ _ (by decide) (by decide), rfl, by decide +kernel, by decide +kernel, by decide, by decide,
    by decide⟩

/-- Symbol 255's code from bit address 3: its last bit, at 13, lies in a later byte, and address 15 above it. -/
theorem witness_EncWritesTheCode_in_later_bytes :
    (tiny [0xFF, 0xFF] 3 0 []).Inv ∧ (tiny [0xFF, 0xFF] 3 0 []).Running
    ∧ (tiny [0xFF, 0xFF] 3 0 []).wcur.toNat + (tiny [0xFF, 0xFF] 3 0 []).codeLen 255#8
        ≤ 8 * (tiny [0xFF, 0xFF] 3 0 []).bufBytes
    ∧ (tiny [0xFF, 0xFF] 3 0 []).codeLen 255#8 = 11 ∧ 3 / 8 < (3 + 10) / 8
    ∧ (3 + 11 ≤ 15 ∧ 15 / 8 = (3 + 11 - 1) / 8 ∧ 3 / 8 < 15 / 8) :=
  ⟨tiny_inv _ _ _ _ (by decide) (by decide), rfl, by decide +kernel, by decide +kernel, by decide, by decide⟩

/-- The code ends one bit before the end of BUF: symbol 255 from bit address 4 of two bytes. -/
theorem witness_EncLeavesFreshGround :
    (tiny [0x0F, 0xFF] 4 0 []).Inv ∧ (tiny [0x0F, 0xFF] 4 0 []).Running ∧ (tiny [0x0F, 0xFF] 4 0 []).FreshAt 4
    ∧ (tiny [0x0F, 0xFF] 4 0 []).wcur.toNat + (tiny [0x0F, 0xFF] 4 0 []).codeLen 255#8
        < 8 * (tiny [0x0F, 0xFF] 4 0 []).bufBytes :=
  ⟨tiny_inv _ _ _ _ (by decide) (by decide), rfl, .inr (fun k h1 h2 => by
    have : k = 4 ∨ k = 5 ∨ k = 6 ∨ k = 7 := by omega
    rcases this with rfl | rfl | rfl | rfl <;> decide), by decide +kernel⟩

/-- Symbol 255 goes into bytes 1 and 2; symbol 0's code at bit address 6 lies in byte 0, that at 24 in byte 3. -/
theorem witness_StreamsInDisjointBytesStayApart :
    (tiny [0xAA, 0xAA, 0xAA, 0xAA] 8 0 []).Inv ∧ (tiny [0xAA, 0xAA, 0xAA, 0xAA] 8 0 []).Running
    ∧ (tiny [0xAA, 0xAA, 0xAA, 0xAA] 8 0 []).codeLen 255#8 = 11
    ∧ (tiny [0xAA, 0xAA, 0xAA, 0xAA] 8 0 []).codeLen 0#8 = 2
    ∧ 8 + 11 ≤ 8 * (tiny [0xAA, 0xAA, 0xAA, 0xAA] 8 0 []).bufBytes
    ∧ (∀ i, i < 2 → (6 + i) / 8 < 8 / 8) ∧ (∀ i, i < 2 → (8 + 11 - 1) / 8 < (24 + i) / 8) :=
  ⟨tiny_inv _ _ _ _ (by decide) (by decide), rfl, by decide +kernel, by decide +kernel, by decide,
    by decide, by decide⟩

theorem witness_EncOutOfRangeWritesNothing :
    256 ≤ (256#24).toNat ∧ 256 ≤ (0xFFFFFF#24).toNat ∧ (tiny [0x00] 0 0 []).Running
    ∧ ¬ (tinyHalted [0x00] []).Running := ⟨by decide, by decide, rfl, nofun⟩

/-- V5.10: one bit too far, on fresh ground; and a cursor at the first bit address outside BUF. -/
theorem witness_EncStopsAtTheEndOfBuf :
    (tiny [0xAA, 0xAA, 0x2A, 0xAA] 22 0 []).Inv ∧ (tiny [0xAA, 0xAA, 0x2A, 0xAA] 22 0 []).Running
    ∧ 8 * 4 + 1 = 22 + (tiny [0xAA, 0xAA, 0x2A, 0xAA] 22 0 []).codeLen 255#8
    ∧ (tiny [0xAA, 0xAA, 0x2A, 0xAA] 22 0 []).FreshAt 22
    ∧ (tiny [0x00] 8 0 []).Inv ∧ (tiny [0x00] 8 0 []).Running
    ∧ 8 * (tiny [0x00] 8 0 []).bufBytes ≤ (tiny [0x00] 8 0 []).wcur.toNat :=
  ⟨tiny_inv _ _ _ _ (by decide) (by decide), rfl, by decide +kernel, .inr (fun k h1 h2 => by
    have : k = 6 ∨ k = 7 := by omega
    rcases this with rfl | rfl <;> decide),
    tiny_inv _ _ _ _ (by decide) (by decide), rfl, by decide⟩

/-- V5.10 as it stands, on ground that is not fresh: address 23 of the first byte, 31 of a later one, and 21 below. -/
theorem witness_EncStopsAtTheEndOfBuf_on_dirty_ground :
    (tiny [0xAA, 0xAA, 0xAA, 0xAA] 22 0 []).Inv ∧ (tiny [0xAA, 0xAA, 0xAA, 0xAA] 22 0 []).Running
    ∧ 8 * (tiny [0xAA, 0xAA, 0xAA, 0xAA] 22 0 []).bufBytes < 22 + (tiny [0xAA, 0xAA, 0xAA, 0xAA] 22 0 []).codeLen 255#8
    ∧ (22 % 8 ≠ 0 ∧ (22 + 1) / 8 = 22 / 8) ∧ (22 + 9 < 8 * 4 ∧ 22 / 8 < (22 + 9) / 8)
    ∧ (21 < 22 ∧ 21 / 8 = 22 / 8) :=
  ⟨tiny_inv _ _ _ _ (by decide) (by decide), rfl, by decide +kernel, by decide, by decide, by decide⟩

/-- V5.9's result read back: symbol 255 from bit address 21 up to the last bit of BUF. -/
theorem witness_DecResolvesTheCodeAtTheCursor :
    (tiny [0xAA, 0xAA, 0xAA, 0xFF] 0 21 []).Inv ∧ (tiny [0xAA, 0xAA, 0xAA, 0xFF] 0 21 []).Running
    ∧ (tiny [0xAA, 0xAA, 0xAA, 0xFF] 0 21 []).CodeAt 21 255#8
    ∧ 21 + (tiny [0xAA, 0xAA, 0xAA, 0xFF] 0 21 []).codeLen 255#8
        = 8 * (tiny [0xAA, 0xAA, 0xAA, 0xFF] 0 21 []).bufBytes :=
  ⟨tiny_inv _ _ _ _ (by decide) (by decide), rfl, by unfold State.CodeAt; decide +kernel, by decide +kernel⟩

/-- V7.5: exactly twelve bits left and no code there; `DEC` ends with `DX` 1. -/
theorem witness_DecGivesUpAfterTwelveBits :
    (tiny [0xFF, 0xFF] 0 4 []).Inv ∧ (tiny [0xFF, 0xFF] 0 4 []).Running
    ∧ (tiny [0xFF, 0xFF] 0 4 []).rcur.toNat + 12 = 8 * (tiny [0xFF, 0xFF] 0 4 []).bufBytes
    ∧ (∀ sym, ¬ (tiny [0xFF, 0xFF] 0 4 []).CodeAt 4 sym)
    ∧ look (fun t => t.dx) (exec .dec (tiny [0xFF, 0xFF] 0 4 [])) = some true :=
  ⟨tiny_inv _ _ _ _ (by decide) (by decide), rfl, by decide, by unfold State.CodeAt; decide +kernel,
    by decide +kernel⟩

/-- V7.4: eleven bits left and no code in them; and a cursor at the first bit address outside BUF. -/
theorem witness_DecStopsAtTheEndOfBuf :
    (tiny [0xFF, 0xFF] 0 5 []).Inv ∧ (tiny [0xFF, 0xFF] 0 5 []).Running
    ∧ (tiny [0xFF, 0xFF] 0 5 []).rcur.toNat < 8 * (tiny [0xFF, 0xFF] 0 5 []).bufBytes
    ∧ 8 * (tiny [0xFF, 0xFF] 0 5 []).bufBytes < (tiny [0xFF, 0xFF] 0 5 []).rcur.toNat + 12
    ∧ (∀ sym, ¬ (tiny [0xFF, 0xFF] 0 5 []).CodeAt 5 sym)
    ∧ 8 * (tiny [0xFF] 0 8 []).bufBytes ≤ (tiny [0xFF] 0 8 []).rcur.toNat :=
  ⟨tiny_inv _ _ _ _ (by decide) (by decide), rfl, by decide, by decide, by unfold State.CodeAt; decide +kernel,
    by decide⟩

/-- A `DEC` that ends Resolved at length 11 (V6.3) and one that ends in Depth-Exceeded (V7.1), both running after. -/
theorem witness_DecAdvanceTellsTheOutcome :
    (tiny [0xFD, 0x07] 0 0 []).Inv ∧ (tiny [0xFD, 0x07] 0 0 []).Running
    ∧ look (fun t => (t.halted, t.dx)) (exec .dec (tiny [0xFD, 0x07] 0 0 [])) = some (false, false)
    ∧ (tiny [0xFF, 0xFF] 0 0 []).Inv
    ∧ look (fun t => (t.halted, t.dx)) (exec .dec (tiny [0xFF, 0xFF] 0 0 [])) = some (false, true) :=
  ⟨tiny_inv _ _ _ _ (by decide) (by decide), rfl, by decide +kernel, tiny_inv _ _ _ _ (by decide) (by decide),
    by decide +kernel⟩

theorem witness_DecoderStateMachineIsDec : (tiny [0xFF, 0xFF] 0 4 []).Running := rfl

/-- P5's kind of program: symbol 255 at bit address 8 of a BUF of three bytes. -/
theorem witness_EncThenDecGivesTheSymbolBack :
    (tiny [0xAA, 0xAA, 0xAA] 0 0 [(AsmLine.setw 8#32).transaction, (AsmLine.enc 255).transaction,
      (AsmLine.setr 8#32).transaction, AsmLine.dec.transaction]).Inv
    ∧ (tiny [0xAA, 0xAA, 0xAA] 0 0 []).Running ∧ (tiny [0xAA, 0xAA, 0xAA] 0 0 []).FreshAt (8#32).toNat
    ∧ (8#32).toNat + (tiny [0xAA, 0xAA, 0xAA] 0 0 []).codeLen 255#8 ≤ 8 * (tiny [0xAA, 0xAA, 0xAA] 0 0 []).bufBytes
    ∧ (AsmLine.enc 255).transaction = (AsmLine.enc (255#8).toNat).transaction :=
  ⟨tiny_inv _ _ _ _ (by decide) (by decide), rfl, .inl rfl, by decide +kernel, rfl⟩

/-- The document's sequence 65, 0, 255 (95_test_vectors.md P1) in a BUF of three bytes, 23 of its 24 bits. -/
theorem witness_SymbolStreamsDecodeInOrder :
    (tiny [0xAA, 0xAA, 0xAA] 0 0 []).Inv ∧ (tiny [0xAA, 0xAA, 0xAA] 0 0 []).Running
    ∧ (tiny [0xAA, 0xAA, 0xAA] 0 0 []).FreshAt 0
    ∧ (tiny [0xAA, 0xAA, 0xAA] 0 0 []).streamLen [65#8, 0#8, 255#8] = 23 :=
  ⟨tiny_inv _ _ _ _ (by decide) (by decide), rfl, .inl rfl, by decide +kernel⟩

theorem witness_EveryStepKeepsTheInvariant :
    (tiny [0xAA] 0 0 [.bwr 0 1#8]).Inv ∧ ∃ t, step (tiny [0xAA] 0 0 [.bwr 0 1#8]) = .next t :=
  ⟨tiny_inv _ _ _ _ (by decide) (by decide), ⟨_, rfl⟩⟩

theorem witness_RomAndBufSizeNeverChange : ∃ t, step (tiny [0xAA] 0 0 [.reset]) = .next t := ⟨_, rfl⟩

theorem witness_ResultAndDxAreNeverRead : ∃ t, exec .dec (tiny [0xFF, 0xFF] 0 0 []) = .next t := ⟨_, rfl⟩

theorem witness_CursorsAreIndependent :
    (∃ t, exec (.enc 255#24) (tiny [0xAA] 0 0 []) = .next t) ∧ (∃ t, exec .dec (tiny [0xAA] 0 0 []) = .next t)
    ∧ (∃ t, exec (.lkpat 2#12 4#4) (tiny [0xAA] 0 0 []) = .next t) := ⟨⟨_, rfl⟩, ⟨_, rfl⟩, ⟨_, rfl⟩⟩

theorem witness_LoadingCommandsFrame :
    (∃ t, exec .rdbit (tiny [0xAA] 0 0 []) = .next t) ∧ (∃ t, exec .dec (tiny [0xAA] 0 0 []) = .next t)
    ∧ (∃ t, exec (.lksym 255#8) (tiny [0xAA] 0 0 []) = .next t)
    ∧ (∃ t, exec (.lkpat 2#12 4#4) (tiny [0xAA] 0 0 []) = .next t) := ⟨⟨_, rfl⟩, ⟨_, rfl⟩, ⟨_, rfl⟩, ⟨_, rfl⟩⟩

/-- Byte 1 is neither the byte at the cursor nor a byte of symbol 0's code. -/
theorem witness_StoringCommandsFrame :
    (∃ t, exec (.wrbit 1#1) (tiny [0xAA, 0xAA] 0 0 []) = .next t) ∧ 1 ≠ byteIndex (tiny [0xAA, 0xAA] 0 0 []).wcur
    ∧ (∃ t, exec (.enc 0#24) (tiny [0xAA, 0xAA] 0 0 []) = .next t) ∧ isSymbol 0#24 = true
    ∧ (∀ i, i < (tiny [0xAA, 0xAA] 0 0 []).codeLen 0#8 →
        1 ≠ byteIndex ((tiny [0xAA, 0xAA] 0 0 []).wcur + BitVec.ofNat 32 i)) :=
  ⟨⟨_, rfl⟩, by decide, ⟨_, rfl⟩, by decide, by decide +kernel⟩

theorem witness_CursorsNeverWrap :
    (tiny [0xFF, 0xFF] 0 0 []).Inv ∧ ∃ t, exec .dec (tiny [0xFF, 0xFF] 0 0 []) = .next t :=
  ⟨tiny_inv _ _ _ _ (by decide) (by decide), ⟨_, rfl⟩⟩

end Sys2Proof.Tests
end

section
/-! The host's register writes (10_state.md R27) and reset (R24, 70_reset_and_hazards.md R116): one lemma per operation,
then the statements settled from them. -/

namespace Sys2Proof.Machine

/-- A write to `CMD` is the execution of its word (10_state.md R27). -/
@[simp] theorem transact_hwr_cmd (w : Word) (s : State) : transact (.hwr .cmd w) s = execWord w s := rfl

/-- A write to `RES` is ignored, halted or not (10_state.md R27). -/
@[simp] theorem transact_hwr_res (v : Word) (s : State) : transact (.hwr .res v) s = .next s := rfl

/-- A write to `STATUS` is ignored, halted or not (10_state.md R27). -/
@[simp] theorem transact_hwr_status (v : Word) (s : State) : transact (.hwr .status v) s = .next s := rfl

@[simp] theorem transact_reset (s : State) : transact .reset s = .next s.resetEngine := rfl

theorem transact_hwr_wcur_of_running (v : Word) {s : State} (h : s.Running) :
    transact (.hwr .wcur v) s = .next (s.setWcur v) := by
  simp only [transact, hostWrite, whenRunning_of_running _ _ h]

theorem transact_hwr_rcur_of_running (v : Word) {s : State} (h : s.Running) :
    transact (.hwr .rcur v) s = .next (s.setRcur v) := by
  simp only [transact, hostWrite, whenRunning_of_running _ _ h]

/-- A halted engine ignores every word written to `CMD`, legal or not (60_exceptions.md R97). -/
theorem execWord_of_halted (w : Word) {s : State} (h : ¬ s.Running) : execWord w s = .next s := by
  unfold execWord
  split
  · exact exec_of_halted _ h
  · rw [whenRunning_of_halted _ _ h]

/-- A halted engine ignores every register write (10_state.md R27, 60_exceptions.md R97). -/
theorem transact_hwr_of_halted (reg : HostReg) (v : Word) {s : State} (h : ¬ s.Running) :
    transact (.hwr reg v) s = .next s := by
  cases reg with
  | cmd => exact execWord_of_halted v h
  | wcur | rcur => simp only [transact, hostWrite, whenRunning_of_halted _ _ h]
  | res | status => rfl

/-- With no fault and `DX` 0 the register `STATUS` reads as 0 (10_state.md R20). -/
theorem State.statusWord_eq_zero {s : State} (hf : s.fault = .noFault) (hd : s.dx = false) :
    s.statusWord = 0#32 := by
  rw [State.statusWord, hf, hd]
  decide

end Sys2Proof.Machine

namespace Sys2Proof

open Machine

/-- Settles O14: running, each register's write by its own lemma; halted, all of them by one. -/
theorem hostWritesReplaceCursorsAndRunCommands : Obligations.HostWritesReplaceCursorsAndRunCommands := by
  intro s v
  constructor
  · intro hr
    refine ⟨transact_hwr_wcur_of_running v hr, transact_hwr_rcur_of_running v hr, ?_, ?_,
      transact_hwr_res v s, transact_hwr_status v s⟩
    · intro i hd
      exact execWord_of_ok hd s
    · intro e hd
      exact execWord_of_error hd hr
  · intro hr reg
    exact transact_hwr_of_halted reg v hr

/-- Settles O18: the power-on values, read off the state's fields, and after a RESET in any state those of
`State.resetEngine`. -/
theorem resetLeavesTheSpecsValues : Obligations.ResetLeavesTheSpecsValues := by
  refine ⟨rfl, rfl, rfl, State.statusWord_eq_zero rfl rfl, rfl, rfl, rfl, rfl, Memory.read_nil, fun s => ?_⟩
  exact ⟨s.resetEngine, transact_reset s, s.resetEngine_wcur, s.resetEngine_rcur, s.resetEngine_res,
    State.statusWord_eq_zero s.resetEngine_fault s.resetEngine_dx,
    fun a => by rw [s.resetEngine_buf], s.resetEngine_rom⟩

end Sys2Proof
end

section
/-! Illegal words (30_encoding.md R49): a row of the opcode map is selected exactly by its opcode byte with a reserved
field of zero, so a word is rejected exactly if no opcode gives it both. -/

namespace Sys2Proof

open Machine

/-- How many low bits of the word the operands of a command take; the rest of its argument field is reserved
(30_encoding.md R46). -/
def Opcode.operandBits : Opcode → Nat
  | .wrbit => 1
  | .rdbit => 0
  | .enc => 24
  | .dec => 0
  | .lksym => 8
  | .lkpat => 16

/-- The reserved field of a format is zero in `w` (30_encoding.md R46). -/
def Opcode.ReservedZero (op : Opcode) (w : Word) : Prop :=
  w.extractLsb' op.operandBits (24 - op.operandBits) = 0#(24 - op.operandBits)

/-- Above its low `k` bits a word is the opcode byte `b` and zeros exactly if its two fields there are `b` and 0. -/
theorem highBits_eq_byte_iff_fields (w : Word) (b : BitVec 8) {k : Nat} (hk : k ≤ 24) :
    w.toNat / 2 ^ k * 2 ^ k = b.toNat * 2 ^ 24 ↔
      w.extractLsb' 24 8 = b ∧ w.extractLsb' k (24 - k) = 0#(24 - k) := by
  have hsplit : 2 ^ 24 = 2 ^ (24 - k) * 2 ^ k := by rw [← pow_add, Nat.sub_add_cancel hk]
  have hbyte : w.toNat / 2 ^ k / 2 ^ (24 - k) = w.toNat / 2 ^ 24 := by
    rw [Nat.div_div_eq_div_mul, hsplit, Nat.mul_comm]
  have hfit : w.toNat / 2 ^ 24 % 2 ^ 8 = w.toNat / 2 ^ 24 := by
    have := w.isLt
    omega
  calc w.toNat / 2 ^ k * 2 ^ k = b.toNat * 2 ^ 24
      ↔ w.toNat / 2 ^ k = 0 + 2 ^ (24 - k) * b.toNat := by
        rw [hsplit, ← Nat.mul_assoc, Nat.mul_left_inj (by positivity), Nat.zero_add, Nat.mul_comm b.toNat]
    _ ↔ w.toNat / 2 ^ 24 = b.toNat ∧ w.toNat / 2 ^ k % 2 ^ (24 - k) = 0 := by
        rw [← hbyte, Nat.div_mod_unique (by positivity), eq_comm, and_iff_left (by positivity)]
    _ ↔ _ := by
        rw [← BitVec.toNat_inj, ← BitVec.toNat_inj, toNat_field, toNat_field, hfit, BitVec.toNat_zero]

/-- Each row masks off its operands and matches its opcode byte before zeros (30_encoding.md R47). -/
theorem opcodeTable_maskAndMatch : ∀ r ∈ opcodeTable,
    (∀ i, i < 32 → r.mask.getLsbD i = decide (r.op.operandBits ≤ i))
    ∧ r.matchBits.toNat = r.op.byte.toNat * 2 ^ 24 := by
  decide

theorem Opcode.operandBits_le (op : Opcode) : op.operandBits ≤ 24 := by
  cases op <;> decide

/-- Every opcode has a row (30_encoding.md R47). -/
theorem Opcode.exists_row (op : Opcode) : ∃ r ∈ opcodeTable, r.op = op := by
  cases op <;> decide

/-- A word selects a row exactly if it has the row's opcode byte and a reserved field of zero. -/
theorem OpcodeRow.selects_iff {r : OpcodeRow} (hr : r ∈ opcodeTable) (w : Word) :
    r.selects w = true ↔ w.extractLsb' 24 8 = r.op.byte ∧ r.op.ReservedZero w := by
  obtain ⟨hmask, hmatch⟩ := opcodeTable_maskAndMatch r hr
  rw [OpcodeRow.selects, beq_iff_eq, and_highMask_eq_iff w _ _ _ hmask, hmatch,
    highBits_eq_byte_iff_fields w _ r.op.operandBits_le, Opcode.ReservedZero]

/-- A word is rejected exactly if it selects no row (30_encoding.md R49). -/
theorem decode_error_iff_selects_none (w : Word) :
    (∃ e, decode w = .error e) ↔ ∀ r ∈ opcodeTable, ¬ r.selects w = true := by
  rw [← List.find?_eq_none, decode]
  cases opcodeTable.find? (fun r => r.selects w) with
  | none => simp
  | some r => simp

/-- A word is rejected exactly if its reserved field is not zero under whichever opcode its byte names
(30_encoding.md R49). -/
theorem decode_error_iff_fields (w : Word) :
    (∃ e, decode w = .error e) ↔ ∀ op : Opcode, w.extractLsb' 24 8 = op.byte → ¬ op.ReservedZero w := by
  rw [decode_error_iff_selects_none]
  constructor
  · intro h op hb hz
    obtain ⟨r, hr, rfl⟩ := op.exists_row
    exact h r hr ((OpcodeRow.selects_iff hr w).2 ⟨hb, hz⟩)
  · intro h r hr hs
    obtain ⟨hb, hz⟩ := (OpcodeRow.selects_iff hr w).1 hs
    exact h r.op hb hz

/-- `ENC` has no reserved field (30_encoding.md R46). -/
theorem Opcode.reservedZero_enc (w : Word) : Opcode.enc.ReservedZero w := BitVec.eq_of_zero_length rfl

/-- Settles O4: the rejected words by `decode_error_iff_fields`, opcode by opcode, and what executing one does by
`execWord_of_error`. -/
theorem illegalWordsRaiseIllegalCmd : Obligations.IllegalWordsRaiseIllegalCmd := by
  intro w
  constructor
  · rw [decode_error_iff_fields]
    constructor
    · intro h
      by_cases hmem : w.extractLsb' 24 8 ∈ [0x01#8, 0x02#8, 0x03#8, 0x04#8, 0x05#8, 0x06#8]
      · right
        simp only [List.mem_cons, List.not_mem_nil, or_false] at hmem
        rcases hmem with hb | hb | hb | hb | hb | hb
        · exact .inl ⟨hb, h .wrbit hb⟩
        · exact .inr (.inl ⟨.inl hb, h .rdbit hb⟩)
        · exact absurd (Opcode.reservedZero_enc w) (h .enc hb)
        · exact .inr (.inl ⟨.inr hb, h .dec hb⟩)
        · exact .inr (.inr (.inl ⟨hb, h .lksym hb⟩))
        · exact .inr (.inr (.inr ⟨hb, h .lkpat hb⟩))
      · exact .inl hmem
    · intro h op hop hz
      rw [hop] at h
      cases op with
      | enc => simp [Opcode.byte] at h
      | wrbit | rdbit | dec | lksym | lkpat =>
        refine absurd hz ?_
        simpa [Opcode.byte, Opcode.ReservedZero, Opcode.operandBits] using h
  · rintro s ⟨e, he⟩ hr
    exact execWord_of_error he hr

end Sys2Proof
end

section
/-! The two lookup commands (40_code_table.md R62, R63): the fields of what `LKSYM` and `LKPAT` leave in `RES`, the
lookups an admissible table never answers, and what the decoder makes of the words of one opcode. -/

namespace Sys2Proof.Machine

/-- `LKPAT`'s result when nothing is found is 0 (40_code_table.md R63). -/
theorem foundWord_none : foundWord none = 0#32 := rfl

theorem toNat_entryWord (e : CodeEntry) : (entryWord e).toNat = e.len.toNat * 4096 + e.pat.toNat := by
  simp only [entryWord, toNat_append_eq, BitVec.toNat_ofNat]
  omega

/-- Bits 31:16 of `LKSYM`'s result are 0 (40_code_table.md R62). -/
@[simp] theorem entryWord_high (e : CodeEntry) : (entryWord e).extractLsb' 16 16 = 0#16 := by
  refine BitVec.eq_of_toNat_eq ?_
  rw [toNat_field, toNat_entryWord, BitVec.toNat_zero]
  omega

/-- Bits 15:12 of `LKSYM`'s result are the length (40_code_table.md R62). -/
@[simp] theorem entryWord_len (e : CodeEntry) : (entryWord e).extractLsb' 12 4 = e.len := by
  refine BitVec.eq_of_toNat_eq ?_
  rw [toNat_field, toNat_entryWord]
  omega

/-- Bit 11 of `LKSYM`'s result is 0 (40_code_table.md R62). -/
@[simp] theorem entryWord_bit11 (e : CodeEntry) : (entryWord e).getLsbD 11 = false := by
  have hpat := e.pat.isLt
  rw [BitVec.getLsbD, toNat_entryWord, Nat.testBit_eq_decide_div_mod_eq, decide_eq_false_iff_not]
  omega

/-- Bits 10:0 of `LKSYM`'s result are the pattern (40_code_table.md R62). -/
@[simp] theorem entryWord_pat (e : CodeEntry) : (entryWord e).extractLsb' 0 11 = e.pat := by
  refine BitVec.eq_of_toNat_eq ?_
  rw [toNat_field, toNat_entryWord]
  omega

/-- `LKPAT`'s result for a symbol found is 0x100 plus the symbol (40_code_table.md R63). -/
theorem foundWord_some (sym : Sym) : foundWord (some sym) = 0x100#32 + sym.setWidth 32 := by
  refine BitVec.eq_of_toNat_eq ?_
  simp only [foundWord, toNat_append_eq, BitVec.toNat_add, BitVec.toNat_setWidth, BitVec.toNat_ofNat]
  omega

/-- Lengths outside 2 to 11 and patterns with a bit at or above the length are never found in an admissible table
(10_state.md R12 W2, W4; 40_code_table.md R63). -/
theorem lookupPat_eq_none_of_not_code {t : Table} (ht : t.Admissible) {p : BitVec 12} {l : BitVec 4}
    (h : l.toNat < 2 ∨ 11 < l.toNat ∨ 2 ^ l.toNat ≤ p.toNat) : lookupPat t p l = none := by
  rw [lookupPat_none]
  rintro s ⟨rfl, rfl⟩
  obtain ⟨hmin, hmax⟩ := ht.lengths s
  have hpat := ht.normalised s
  rw [BitVec.toNat_setWidth_of_le (by decide)] at h
  omega

end Sys2Proof.Machine

namespace Sys2Proof

open Machine

/-- The opcodes differ (30_encoding.md R47). -/
theorem Opcode.eq_of_byte_eq {a b : Opcode} (h : a.byte = b.byte) : a = b := by
  revert h
  cases a <;> cases b <;> decide

/-- A word with an opcode's byte and a reserved field of zero is that opcode's command (30_encoding.md R46, R47). -/
theorem decode_of_reservedZero {op : Opcode} {w : Word} (hb : w.extractLsb' 24 8 = op.byte)
    (hz : op.ReservedZero w) : decode w = .ok (operands op w) := by
  obtain ⟨r, hr, hrop⟩ := op.exists_row
  have hsel : r.selects w = true := (OpcodeRow.selects_iff hr w).2 (hrop.symm ▸ ⟨hb, hz⟩)
  rw [decode]
  cases hfind : opcodeTable.find? (fun r => r.selects w) with
  | none => exact absurd hsel (List.find?_eq_none.1 hfind r hr)
  | some q =>
    have hqsel : q.selects w = true := List.find?_some (p := fun r : OpcodeRow => r.selects w) hfind
    obtain ⟨hqb, -⟩ := (OpcodeRow.selects_iff (List.mem_of_find?_eq_some hfind) w).1 hqsel
    have hqop : q.op = op := Opcode.eq_of_byte_eq (hqb.symm.trans hb)
    simp only [hqop]

/-- Executing a word with an opcode's byte and a nonzero reserved field raises `ILLEGAL_CMD` (30_encoding.md R49). -/
theorem execWord_of_not_reservedZero {op : Opcode} {w : Word} (hb : w.extractLsb' 24 8 = op.byte)
    (hz : ¬ op.ReservedZero w) {s : State} (hr : s.Running) :
    execWord w s = .next { s with fault := .illegalCmd } := by
  have herr : ∃ e, decode w = .error e := by
    refine (decode_error_iff_fields w).2 fun q hq => ?_
    rwa [Opcode.eq_of_byte_eq (hq.symm.trans hb)]
  obtain ⟨e, he⟩ := herr
  exact execWord_of_error he hr

/-- Settles O28: the words by their opcode byte and reserved field, the result by the fields of `entryWord`, its range
by W2 and W4. -/
theorem lksymReturnsTheEntry : Obligations.LksymReturnsTheEntry := by
  constructor
  · intro w hb
    exact ⟨decode_of_reservedZero (op := .lksym) hb,
      fun hz s hr => execWord_of_not_reservedZero (op := .lksym) hb hz hr⟩
  · intro s sym
    refine ⟨fun hr => ?_, exec_of_halted _, fun ht => ?_⟩
    · exact ⟨entryWord (s.rom.entry sym), exec_lksym_of_running sym hr, entryWord_high _, entryWord_len _,
        entryWord_bit11 _, entryWord_pat _⟩
    · obtain ⟨hmin, hmax⟩ := ht.lengths sym
      exact ⟨hmin, hmax, ht.normalised sym⟩

/-- Settles O29: the words as for `LKSYM`; the symbol found is the only one that matches, and what is not found leaves
0 in `RES`. -/
theorem lkpatSearchesTheTable : Obligations.LkpatSearchesTheTable := by
  constructor
  · intro w hb
    exact ⟨decode_of_reservedZero (op := .lkpat) hb,
      fun hz s hr => execWord_of_not_reservedZero (op := .lkpat) hb hz hr⟩
  · intro s pat len ht
    refine ⟨fun hr => ?_, exec_of_halted _⟩
    have hnone (h : lookupPat s.rom pat len = none) :
        exec (.lkpat pat len) s = .next { s with res := 0#32 } := by
      rw [exec_lkpat_of_running pat len hr, h, foundWord_none]
      rfl
    refine ⟨fun sym hl hp => ?_, fun h => ?_, fun h => ?_⟩
    · rw [exec_lkpat_of_running pat len hr, lookupPat_of_match ht hl hp, foundWord_some]
      rfl
    · exact hnone (lookupPat_none.2 fun sym ⟨hl, hp⟩ => h sym hl hp)
    · exact hnone (lookupPat_eq_none_of_not_code ht h)

end Sys2Proof
end

section
/-! The command `WRBIT` (41_bit_writer.md R70, R71): the bounds test by the cursor's byte address, what `WriteBit` on
an admitted cursor leaves in BUF and what it leaves alone, then the statement settled from them. -/

namespace Sys2Proof.Machine

/-- A cursor is admitted exactly if its byte address lies in BUF (20_memory.md R35). -/
theorem State.admits_iff_byteIndex_lt (s : State) (c : Word) : s.admits c = true ↔ byteIndex c < s.bufBytes :=
  decide_eq_true_iff

/-- A cursor is not admitted exactly if its byte address lies at or beyond the end of BUF (20_memory.md R35). -/
theorem State.not_admits_iff_le_byteIndex (s : State) (c : Word) :
    s.admits c = false ↔ s.bufBytes ≤ byteIndex c := by
  rw [← Bool.not_eq_true, State.admits_iff_byteIndex_lt, Nat.not_lt]

/-- `WriteBit` on an admitted cursor advances it by 1 (41_bit_writer.md R70). -/
theorem writeBit_wcur {s : State} (b : Bit) (h : s.admits s.wcur = true) : (writeBit b s).wcur = s.wcur + 1#32 := by
  rw [writeBit_of_admits b h, State.setWcur_wcur]

/-- `WriteBit` on an admitted cursor writes its byte at the cursor's byte address (41_bit_writer.md R70). -/
theorem writeBit_buf {s : State} (b : Bit) (h : s.admits s.wcur = true) :
    (writeBit b s).buf = s.buf.write (byteIndex s.wcur) (byteWithBit b s) := by
  rw [writeBit_of_admits b h, State.setWcur_buf, State.setBufByte_buf]

/-- The byte at the cursor after `WriteBit` (41_bit_writer.md R70). -/
theorem writeBit_bufByte_same {s : State} (b : Bit) (h : s.admits s.wcur = true) :
    (writeBit b s).bufByte (byteIndex s.wcur) = byteWithBit b s := by
  rw [writeBit_of_admits b h, State.bufByte_congr (State.setWcur_buf _ _), State.bufByte_setBufByte, if_pos rfl]

/-- `WriteBit` leaves every other byte of BUF (41_bit_writer.md R70). -/
theorem writeBit_read_other {s : State} (b : Bit) (h : s.admits s.wcur = true) {a : Nat} (ha : a ≠ byteIndex s.wcur) :
    (writeBit b s).buf.read a = s.buf.read a := by
  rw [writeBit_buf b h, Memory.read_write_other _ _ ha]

/-- `WriteBit` on an admitted cursor changes nothing but `WCUR` and BUF (41_bit_writer.md R70). -/
theorem writeBit_frame {s : State} (b : Bit) (h : s.admits s.wcur = true) :
    { writeBit b s with wcur := s.wcur, buf := s.buf } = s := by
  rw [writeBit_of_admits b h]
  rfl

end Sys2Proof.Machine

namespace Sys2Proof

open Machine

/-- Settles O23: the words by their opcode byte and reserved field; running, `WriteBit` on a cursor that is admitted
and on one that is not; halted, nothing. -/
theorem wrbitWritesOneBit : Obligations.WrbitWritesOneBit := by
  constructor
  · intro w hb
    exact ⟨decode_of_reservedZero (op := .wrbit) hb,
      fun hz s hr => execWord_of_not_reservedZero (op := .wrbit) hb hz hr⟩
  · intro s b
    refine ⟨fun hr hlt => ?_, fun hr hle => ?_, exec_of_halted _⟩
    · have hadm : s.admits s.wcur = true := (s.admits_iff_byteIndex_lt s.wcur).2 hlt
      exact ⟨writeBit b s, exec_wrbit_of_running b hr, writeBit_wcur b hadm, writeBit_bufByte_same b hadm,
        fun a ha => writeBit_read_other b hadm ha, writeBit_frame b hadm⟩
    · have hout : s.admits s.wcur = false := (s.not_admits_iff_le_byteIndex s.wcur).2 hle
      rw [exec_wrbit_of_running b hr, writeBit_of_not_admits b hout]
      rfl

end Sys2Proof
end

section
/-! The command `RDBIT` (42_bit_reader.md R75, R76): the bit read as the spec's shift and mask, what the command answers
on a cursor that is admitted and on one that is not, then the statement settled from them. -/

namespace Sys2Proof.Machine

/-- A bit of a byte, zero-extended, is the byte shifted down to it and masked with 1 (42_bit_reader.md R75). -/
theorem setWidth_bitOfByte (v : Byte) (k : Nat) :
    (bitOfByte v k).setWidth 32 = (v >>> k &&& 1#8).setWidth 32 := by
  have hbit : (bitOfByte v k).toNat = v.toNat / 2 ^ k % 2 := by rw [bitOfByte, toNat_field, pow_one]
  have hmask : (v >>> k &&& 1#8).toNat = v.toNat / 2 ^ k % 2 := by
    rw [BitVec.toNat_and, BitVec.toNat_ushiftRight, Nat.shiftRight_eq_div_pow]
    exact Nat.and_one_is_mod _
  refine BitVec.eq_of_toNat_eq ?_
  rw [BitVec.toNat_setWidth, BitVec.toNat_setWidth, hbit, hmask]

/-- `RDBIT` on an admitted cursor leaves the bit there in `RES` and advances the cursor by 1 (42_bit_reader.md R76). -/
theorem exec_rdbit_of_admits {s : State} (hr : s.Running) (h : s.admits s.rcur = true) :
    exec .rdbit s = .next ((s.setRcur (s.rcur + 1#32)).setRes ((bitAtCursor s).setWidth 32)) := by
  rw [exec_rdbit_of_running hr, readBit_of_admits h, bitToResult, bitAtCursor_eq]

/-- `RDBIT` on a cursor that is not admitted raises `RD_BOUNDS` and does nothing else (42_bit_reader.md R75). -/
theorem exec_rdbit_of_not_admits {s : State} (hr : s.Running) (h : s.admits s.rcur = false) :
    exec .rdbit s = .next (s.raise .rdBounds) := by
  rw [exec_rdbit_of_running hr, readBit_of_not_admits h, bitToResult]

end Sys2Proof.Machine

namespace Sys2Proof

open Machine

/-- Settles O24: the words by their opcode byte and reserved field; running, `RDBIT` on a cursor that is admitted, with
the bit read by `setWidth_bitOfByte`, and on one that is not; halted, nothing. -/
theorem rdbitReadsOneBit : Obligations.RdbitReadsOneBit := by
  constructor
  · intro w hb
    exact ⟨decode_of_reservedZero (op := .rdbit) hb,
      fun hz s hr => execWord_of_not_reservedZero (op := .rdbit) hb hz hr⟩
  · intro s
    refine ⟨fun hr hlt => ?_, fun hr hle => ?_, exec_of_halted _⟩
    · have hadm : s.admits s.rcur = true := (s.admits_iff_byteIndex_lt s.rcur).2 hlt
      rw [exec_rdbit_of_admits hr hadm, bitAtCursor, setWidth_bitOfByte]
      rfl
    · exact exec_rdbit_of_not_admits hr ((s.not_admits_iff_le_byteIndex s.rcur).2 hle)

end Sys2Proof
end

section
/-! No return from a fault but by reset (60_exceptions.md R98): what a completed access to BUF answers, then the fault
after every transaction but reset on a halted engine, then the statement settled from it and the fields of reset. -/

namespace Sys2Proof.Machine

/-- A `BRD` that completes was inside BUF and changed what the host sees as read, nothing else (20_memory.md R39). -/
theorem hostReadByte_eq_next {a : Nat} {s t : State} (h : hostReadByte a s = .next t) :
    a < s.bufBytes ∧ t = s.respond (.byte (s.bufByte a)) := by
  rcases lt_or_ge a s.bufBytes with hlt | hge
  · rw [hostReadByte_of_lt hlt] at h
    cases h
    exact ⟨hlt, rfl⟩
  · rw [hostReadByte_of_ge hge] at h
    cases h

/-- A `BWR` that completes was inside BUF and wrote its byte, nothing else (20_memory.md R39). -/
theorem hostWriteByte_eq_next {a : Nat} {v : Byte} {s t : State} (h : hostWriteByte a v s = .next t) :
    a < s.bufBytes ∧ t = s.setBufByte a v := by
  rcases lt_or_ge a s.bufBytes with hlt | hge
  · rw [hostWriteByte_of_lt v hlt] at h
    cases h
    exact ⟨hlt, rfl⟩
  · rw [hostWriteByte_of_ge v hge] at h
    cases h

/-- On a halted engine no transaction but reset changes the recorded fault (60_exceptions.md R98). -/
theorem transact_fault_of_halted {tx : HostTx} {s t : State} (hh : ¬ s.Running) (hne : tx ≠ .reset)
    (h : transact tx s = .next t) : t.fault = s.fault := by
  cases tx with
  | hrd reg =>
    cases h
    exact s.respond_fault _
  | hwr reg v =>
    rw [transact_hwr_of_halted reg v hh] at h
    cases h
    rfl
  | brd a =>
    obtain ⟨-, rfl⟩ := hostReadByte_eq_next h
    exact s.respond_fault _
  | bwr a v =>
    obtain ⟨-, rfl⟩ := hostWriteByte_eq_next h
    exact s.setBufByte_fault a v
  | reset => exact absurd rfl hne

end Sys2Proof.Machine

namespace Sys2Proof

open Machine

/-- Settles O20: every transaction but reset by `transact_fault_of_halted`; reset by the fields of
`State.resetEngine`. -/
theorem onlyResetClearsAFault : Obligations.OnlyResetClearsAFault := by
  intro s t tx hh h
  refine ⟨fun hne => transact_fault_of_halted hh hne h, ?_⟩
  rintro rfl
  cases h
  exact ⟨s.resetEngine_fault, s.resetEngine_wcur, s.resetEngine_rcur, s.resetEngine_res,
    State.statusWord_eq_zero s.resetEngine_fault s.resetEngine_dx, fun a => by rw [s.resetEngine_buf]⟩

end Sys2Proof
end

section
/-! What `RESET` answers in every state (70_reset_and_hazards.md R116): the registers at 0, BUF and ROM as they were. -/

namespace Sys2Proof

open Machine

/-- Settles O17: `RESET` answers `State.resetEngine`, and each clause is one of its fields; `STATUS` reads as 0 because
both the fault and `DX` are cleared. -/
theorem resetClearsTheRegisters : Obligations.ResetClearsTheRegisters := by
  intro s
  have hstatus : s.resetEngine.statusWord = 0#32 :=
    State.statusWord_eq_zero s.resetEngine_fault s.resetEngine_dx
  have hbuf (a) : s.resetEngine.buf.read a = s.buf.read a := by rw [s.resetEngine_buf]
  exact ⟨s.resetEngine, transact_reset s, s.resetEngine_wcur, s.resetEngine_rcur, s.resetEngine_res, hstatus,
    s.resetEngine_fault, hbuf, s.resetEngine_rom, s.resetEngine_bufBytes⟩

end Sys2Proof
end

section
/-! Encoding (30_encoding.md R46 to R49, R52, R53): decoder and encoder are inverse to each other, the rows of the
opcode map exclude each other, and the assembler lines are the encoder's words. -/

namespace Sys2Proof

-- The proofs of this section are elaborated one after the other. In parallel each waiting thread holds a stack of
-- 256 MB, and with the tests above still being checked that can exceed the memory the check allows.
set_option deprecated.oldSectionVars true

/-- Every command's word selects the row of its opcode (30_encoding.md R47). -/
theorem selectsItsRow (i : Instr) : Laws.SelectsItsRow.Statement i := by
  cases i with
  | wrbit bit => exact Laws.SelectsItsRow.wrbit bit
  | rdbit => exact Laws.SelectsItsRow.rdbit
  | enc sym => exact Laws.SelectsItsRow.enc sym
  | dec => exact Laws.SelectsItsRow.dec
  | lksym sym => exact Laws.SelectsItsRow.lksym sym
  | lkpat pat len => exact Laws.SelectsItsRow.lkpat pat len

/-- A word that selects a row is that row's command, with the operands of its fields (30_encoding.md R47). -/
theorem decode_of_selects {r : OpcodeRow} (hr : r ∈ opcodeTable) {w : Word} (h : r.selects w = true) :
    decode w = .ok (operands r.op w) := by
  obtain ⟨hb, hz⟩ := (OpcodeRow.selects_iff hr w).1 h
  exact decode_of_reservedZero hb hz

/-- A word is a command only by selecting a row (30_encoding.md R47). -/
theorem exists_row_of_decode {w : Word} {i : Instr} (h : decode w = .ok i) :
    ∃ r ∈ opcodeTable, r.selects w = true ∧ operands r.op w = i := by
  by_contra hno
  have hnone : ∀ r ∈ opcodeTable, ¬ r.selects w = true := by
    intro r hr hs
    refine hno ⟨r, hr, hs, ?_⟩
    rw [decode_of_selects hr hs] at h
    exact Except.ok.inj h
  obtain ⟨e, he⟩ := (decode_error_iff_selects_none w).2 hnone
  rw [he] at h
  cases h

/-- No two rows are for one opcode (30_encoding.md R47). -/
theorem opcodeTable_op_injective : ∀ r ∈ opcodeTable, ∀ r' ∈ opcodeTable, r.op = r'.op → r = r' := by
  decide

/-- The rows are mutually exclusive because their opcodes differ (30_encoding.md R47). -/
theorem selects_unique {r r' : OpcodeRow} (hr : r ∈ opcodeTable) (hr' : r' ∈ opcodeTable) {w : Word}
    (h : r.selects w = true) (h' : r'.selects w = true) : r = r' := by
  have hb := ((OpcodeRow.selects_iff hr w).1 h).1
  have hb' := ((OpcodeRow.selects_iff hr' w).1 h').1
  exact opcodeTable_op_injective r hr r' hr' (Opcode.eq_of_byte_eq (hb.symm.trans hb'))

/-- A field is the operand with the field's value. -/
theorem field_eq_iff {n : Nat} (w : BitVec n) (a k : Nat) (v : BitVec k) :
    w.extractLsb' a k = v ↔ w.toNat / 2 ^ a % 2 ^ k = v.toNat := by
  rw [← BitVec.toNat_inj, toNat_field]

/-- The operand fields of a command's word hold its operands (30_encoding.md R46, R48). -/
theorem operands_encode (i : Instr) : operands i.opcode (encode i) = i := by
  have hfield {a k : Nat} {v : BitVec k} (h : (encode i).toNat / 2 ^ a % 2 ^ k = v.toNat) :
      (encode i).extractLsb' a k = v := (field_eq_iff _ a k v).2 h
  rw [toNat_encode] at hfield
  cases i with
  | rdbit | dec => rfl
  | wrbit bit => exact congrArg Instr.wrbit (hfield (by simp only; omega))
  | enc sym => exact congrArg Instr.enc (hfield (by simp only; omega))
  | lksym sym => exact congrArg Instr.lksym (hfield (by simp only; omega))
  | lkpat pat len =>
    exact congrArg₂ Instr.lkpat (hfield (by simp only; omega)) (hfield (by simp only; omega))

/-- Decoding gives back every encoded command (30_encoding.md R45 to R48). -/
theorem decode_encode (i : Instr) : decode (encode i) = .ok i := by
  obtain ⟨r, hr, hop, hs⟩ := selectsItsRow i
  rw [decode_of_selects hr hs, hop, operands_encode]

/-- The word of the command a word's fields give has the opcode's byte above those fields (30_encoding.md R46). -/
theorem toNat_encode_operands (op : Opcode) (w : Word) :
    (encode (operands op w)).toNat = op.byte.toNat * 2 ^ 24 + w.toNat % 2 ^ op.operandBits := by
  cases op <;>
    simp only [operands, toNat_encode, toNat_field, Opcode.byte, Opcode.operandBits, BitVec.toNat_ofNat] <;> omega

/-- A word that selects a row is the word of the command it decodes to: no bit is left over (30_encoding.md R47). -/
theorem encode_operands_of_selects {r : OpcodeRow} (hr : r ∈ opcodeTable) {w : Word} (h : r.selects w = true) :
    encode (operands r.op w) = w := by
  have hhigh := (highBits_eq_byte_iff_fields w r.op.byte r.op.operandBits_le).2
    ((OpcodeRow.selects_iff hr w).1 h)
  refine BitVec.eq_of_toNat_eq ?_
  rw [toNat_encode_operands, ← hhigh, Nat.div_add_mod']

/-- A number that is the value of a command's word decodes to that command. -/
theorem decode_ofNat {n : Nat} {i : Instr} (h : n = (encode i).toNat) : decode (BitVec.ofNat 32 n) = .ok i := by
  rw [h, BitVec.ofNat_toNat, BitVec.setWidth_eq, decode_encode]

/-- Settles O1: the word selects its command's row, and its operand fields hold the operands. -/
theorem decodeOfEncodeIsTheCommand : Obligations.DecodeOfEncodeIsTheCommand :=
  fun i _ => decode_encode i

/-- Settles O2: a word is a command only by selecting a row, and then it is that command's word. -/
theorem encodeOfDecodeIsTheWord : Obligations.EncodeOfDecodeIsTheWord := by
  intro w i h
  obtain ⟨r, hr, hs, rfl⟩ := exists_row_of_decode h
  exact encode_operands_of_selects hr hs

/-- Settles O3: one row after the other by `decode_of_selects`; the rejected words are those that select none. -/
theorem opcodeMapSelectsTheCommands : Obligations.OpcodeMapSelectsTheCommands := by
  intro w
  have hrow : ∀ r ∈ opcodeTable, w &&& r.mask = r.matchBits → decode w = .ok (operands r.op w) :=
    fun r hr h => decode_of_selects hr (beq_iff_eq.2 h)
  refine ⟨hrow ⟨.wrbit, 0x01000000#32, 0xFFFFFFFE#32⟩ (by decide),
    hrow ⟨.rdbit, 0x02000000#32, 0xFFFFFFFF#32⟩ (by decide),
    hrow ⟨.enc, 0x03000000#32, 0xFF000000#32⟩ (by decide),
    hrow ⟨.dec, 0x04000000#32, 0xFFFFFFFF#32⟩ (by decide),
    hrow ⟨.lksym, 0x05000000#32, 0xFFFFFF00#32⟩ (by decide),
    hrow ⟨.lkpat, 0x06000000#32, 0xFFFF0000#32⟩ (by decide), ?_,
    fun r hr r' hr' h h' => selects_unique hr hr' h h'⟩
  rw [decode_error_iff_selects_none]
  simp only [opcodeTable, OpcodeRow.selects, List.forall_mem_cons, beq_iff_eq, List.not_mem_nil, false_implies,
    implies_true, and_true, ne_eq]

/-- Settles O5: each word is the encoding of the command beside it. -/
theorem writtenOutWordsDecode : Obligations.WrittenOutWordsDecode :=
  ⟨decode_encode (.wrbit 0#1), decode_encode (.wrbit 1#1), decode_encode .rdbit, decode_encode (.enc 256#24),
    decode_encode (.enc 0xFFFFFF#24), decode_encode .dec, decode_encode (.lksym 65#8),
    decode_encode (.lkpat 0x205#12 10#4)⟩

/-- The line `ENC sym` is a write to `CMD` of a word that decodes to `ENC` of the literal in 24-bit two's complement
(30_encoding.md R52). -/
theorem asmEnc_transaction (sym : Int) :
    ∃ w, (AsmLine.enc sym).transaction = .hwr .cmd w ∧ decode w = .ok (.enc (BitVec.ofInt 24 sym)) := by
  refine ⟨_, rfl, decode_ofNat ?_⟩
  rw [toNat_encode]
  simp only [BitVec.toNat_ofInt]
  rfl

/-- Settles O6: the number each line stands for is the value of its command's word. -/
theorem assemblerLinesStandForTheirCommands : Obligations.AssemblerLinesStandForTheirCommands := by
  refine ⟨fun bit hwf => ⟨_, rfl, decode_ofNat ?_⟩, ⟨_, rfl, decode_encode .rdbit⟩,
    fun sym _ => asmEnc_transaction sym, ⟨_, rfl, decode_encode .dec⟩, fun sym hwf => ⟨_, rfl, decode_ofNat ?_⟩,
    fun pat len hwf => ⟨_, rfl, decode_ofNat ?_⟩, fun v => ⟨rfl, rfl⟩⟩
  · have : bit < 2 := of_decide_eq_true hwf
    simp only [toNat_encode, BitVec.toNat_ofNat]
    omega
  · have : sym < 256 := of_decide_eq_true hwf
    simp only [toNat_encode, BitVec.toNat_ofNat]
    omega
  · obtain ⟨hp, hl⟩ : pat < 4096 ∧ len < 16 := of_decide_eq_true hwf
    simp only [toNat_encode, BitVec.toNat_ofNat]
    omega

end Sys2Proof
end

section
/-! What a transaction and a command do, said once: a completed transaction has had one of the effects of `HostEffect`,
and `exec` answers the command's effect while the engine is running and the state as it is while it is halted
(60_exceptions.md R97). Then what every effect leaves alone, and the statements settled from that. -/

namespace Sys2Proof.Machine

/-- What a completed transaction has done (10_state.md R26 to R28, 20_memory.md R39, 60_exceptions.md R97, R98). -/
inductive HostEffect : HostTx → State → State → Prop where
  | readRegister (reg : HostReg) (s : State) : HostEffect (.hrd reg) s (s.respond (.word (hostRead reg s)))
  | ignored (reg : HostReg) (v : Word) (s : State) : HostEffect (.hwr reg v) s s
  | setWcur (v : Word) (s : State) : HostEffect (.hwr .wcur v) s (s.setWcur v)
  | setRcur (v : Word) (s : State) : HostEffect (.hwr .rcur v) s (s.setRcur v)
  | command (w : Word) {i : Instr} {s t : State} (h : exec i s = .next t) : HostEffect (.hwr .cmd w) s t
  | illegal (w : Word) (s : State) : HostEffect (.hwr .cmd w) s (s.raise .illegalCmd)
  | readByte {a : Nat} {s : State} (h : a < s.bufBytes) : HostEffect (.brd a) s (s.respond (.byte (s.bufByte a)))
  | writeByte {a : Nat} (v : Byte) {s : State} (h : a < s.bufBytes) : HostEffect (.bwr a v) s (s.setBufByte a v)
  | reset (s : State) : HostEffect .reset s s.resetEngine

/-- What a command does to a running engine. -/
def effect : Instr → State → State
  | .wrbit bit => writeBit bit
  | .rdbit => fun s => bitToResult (readBit s)
  | .enc sym => encodeSymbol sym
  | .dec => decodeLoop Config.depthBits emptyAcc
  | .lksym sym => fun s => s.setRes (entryWord (lookupSym s.rom sym))
  | .lkpat pat len => fun s => s.setRes (foundWord (lookupPat s.rom pat len))

theorem exec_eq (i : Instr) (s : State) : exec i s = .next (whenRunning (effect i) s) := by
  cases i <;> rfl

/-- A command that answered has done nothing, or its effect on a running engine (60_exceptions.md R97). -/
theorem exec_next_cases {i : Instr} {s t : State} (h : exec i s = .next t) :
    t = s ∨ s.Running ∧ t = effect i s := by
  rw [exec_eq] at h
  obtain rfl := Host.Outcome.next.inj h
  by_cases hr : s.Running
  · exact .inr ⟨hr, whenRunning_of_running _ _ hr⟩
  · exact .inl (whenRunning_of_halted _ _ hr)

theorem effect_enc (sym : BitVec 24) (s : State) : effect (.enc sym) s = encodeSymbol sym s := rfl

theorem effect_rdbit (s : State) : effect .rdbit s = bitToResult (readBit s) := rfl

/-- The first bit of a run ends it or the run goes on (43_encoder.md R80). -/
theorem writeBits_cons (b : Bit) (bs : List Bit) (s : State) :
    writeBits (b :: bs) s = if (writeBit b s).halted then writeBit b s else writeBits bs (writeBit b s) := rfl

/-- `WriteBit` is the run of one bit. -/
theorem writeBits_singleton (b : Bit) (s : State) : writeBits [b] s = writeBit b s := by
  rw [writeBits_cons, writeBits_nil, ite_self]

/-- `ENC` is a run of bit writes, or a raised `SYM_RANGE` (43_encoder.md R80). -/
theorem encodeSymbol_cases (sym : BitVec 24) (s : State) :
    (isSymbol sym = true ∧ encodeSymbol sym s = writeBits (codeBits (s.rom.entry (sym.setWidth 8))) s)
    ∨ (isSymbol sym = false ∧ encodeSymbol sym s = s.raise .symRange) := by
  cases h : isSymbol sym
  · exact .inr ⟨rfl, by simp [encodeSymbol, h]⟩
  · exact .inl ⟨rfl, by simp [encodeSymbol, h, symbolBits, lookupSym]⟩

/-- `RDBIT` on an admitted cursor (42_bit_reader.md R76). -/
theorem effect_rdbit_of_admits {s : State} (h : s.admits s.rcur = true) :
    effect .rdbit s = (s.setRcur (s.rcur + 1#32)).setRes ((s.bit s.rcur.toNat).setWidth 32) := by
  rw [effect_rdbit, readBit_of_admits h]
  rfl

/-- `RDBIT` on a cursor that is not admitted (42_bit_reader.md R75). -/
theorem effect_rdbit_of_not_admits {s : State} (h : s.admits s.rcur = false) :
    effect .rdbit s = s.raise .rdBounds := by
  rw [effect_rdbit, readBit_of_not_admits h]
  rfl

/-- The two things `RDBIT` can do (42_bit_reader.md R76). -/
theorem effect_rdbit_cases (s : State) :
    (s.admits s.rcur = true ∧ effect .rdbit s
      = (s.setRcur (s.rcur + 1#32)).setRes ((s.bit s.rcur.toNat).setWidth 32))
    ∨ (s.admits s.rcur = false ∧ effect .rdbit s = s.raise .rdBounds) := by
  cases h : s.admits s.rcur
  · exact .inr ⟨rfl, effect_rdbit_of_not_admits h⟩
  · exact .inl ⟨rfl, effect_rdbit_of_admits h⟩

/-- `WRBIT` is the run of one bit (41_bit_writer.md R71). -/
theorem effect_wrbit (bit : Bit) (s : State) : effect (.wrbit bit) s = writeBits [bit] s :=
  (writeBits_singleton bit s).symm

/-- No command changes the ROM, the size of BUF or the model's two own fields. -/
theorem effect_keeps (i : Instr) (s : State) :
    (effect i s).rom = s.rom ∧ (effect i s).bufBytes = s.bufBytes
      ∧ (effect i s).pending = s.pending ∧ (effect i s).response = s.response := by
  have hwrite (bs : List Bit) : (writeBits bs s).rom = s.rom ∧ (writeBits bs s).bufBytes = s.bufBytes
      ∧ (writeBits bs s).pending = s.pending ∧ (writeBits bs s).response = s.response := by
    obtain ⟨hrom, hsize, -, -, -, hpend, hresp⟩ := writeBits_keeps bs s
    exact ⟨hrom, hsize, hpend, hresp⟩
  cases i with
  | wrbit bit =>
    rw [effect_wrbit]
    exact hwrite [bit]
  | enc sym =>
    rcases encodeSymbol_cases sym s with ⟨-, h⟩ | ⟨-, h⟩ <;> rw [effect_enc, h]
    · exact hwrite _
    · exact ⟨rfl, rfl, rfl, rfl⟩
  | rdbit => rcases effect_rdbit_cases s with ⟨-, h⟩ | ⟨-, h⟩ <;> rw [h] <;> exact ⟨rfl, rfl, rfl, rfl⟩
  | dec =>
    obtain ⟨hrom, hsize, -, -, hpend, hresp⟩ := decodeLoop_keeps Config.depthBits emptyAcc s
    exact ⟨hrom, hsize, hpend, hresp⟩
  | lksym | lkpat => exact ⟨rfl, rfl, rfl, rfl⟩

theorem exec_keeps {i : Instr} {s t : State} (h : exec i s = .next t) :
    t.rom = s.rom ∧ t.bufBytes = s.bufBytes ∧ t.pending = s.pending ∧ t.response = s.response := by
  obtain rfl | ⟨-, rfl⟩ := exec_next_cases h
  · exact ⟨rfl, rfl, rfl, rfl⟩
  · exact effect_keeps i s

/-- What a completed write to `CMD` has done: what a command does, or recorded an illegal word, or nothing
(30_encoding.md R45, R49). -/
theorem execWord_eq_next {w : Word} {s t : State} (h : execWord w s = .next t) :
    (∃ i, exec i s = .next t) ∨ t = s.raise .illegalCmd ∨ t = s := by
  cases hd : decode w with
  | ok i => exact .inl ⟨i, (execWord_of_ok hd s).symm.trans h⟩
  | error e =>
    by_cases hr : s.Running
    · rw [execWord_of_error hd hr] at h
      exact .inr (.inl (Host.Outcome.next.inj h).symm)
    · rw [execWord_of_halted w hr] at h
      exact .inr (.inr (Host.Outcome.next.inj h).symm)

/-- A register write on a running engine (10_state.md R27). -/
theorem hostEffect_of_hwr_running {reg : HostReg} {v : Word} {s t : State} (hr : s.Running)
    (h : transact (.hwr reg v) s = .next t) : HostEffect (.hwr reg v) s t := by
  cases reg with
  | cmd =>
    rcases execWord_eq_next h with ⟨i, hi⟩ | rfl | rfl
    · exact .command v hi
    · exact .illegal v s
    · exact .ignored .cmd v _
  | wcur =>
    rw [transact_hwr_wcur_of_running v hr] at h
    cases h
    exact .setWcur v s
  | rcur =>
    rw [transact_hwr_rcur_of_running v hr] at h
    cases h
    exact .setRcur v s
  | res | status =>
    cases h
    exact .ignored _ v s

theorem hostEffect_of_transact {tx : HostTx} {s t : State} (h : transact tx s = .next t) : HostEffect tx s t := by
  cases tx with
  | hrd reg =>
    cases h
    exact .readRegister reg s
  | hwr reg v =>
    by_cases hr : s.Running
    · exact hostEffect_of_hwr_running hr h
    · rw [transact_hwr_of_halted reg v hr] at h
      cases h
      exact .ignored reg v s
  | brd a =>
    obtain ⟨ha, rfl⟩ := hostReadByte_eq_next h
    exact .readByte ha
  | bwr a v =>
    obtain ⟨ha, rfl⟩ := hostWriteByte_eq_next h
    exact .writeByte v ha
  | reset =>
    cases h
    exact .reset s

/-- No transaction changes the ROM, the size of BUF or the host's queue. -/
theorem HostEffect.keeps {tx : HostTx} {s t : State} (h : HostEffect tx s t) :
    t.rom = s.rom ∧ t.bufBytes = s.bufBytes ∧ t.pending = s.pending := by
  cases h with
  | command w h =>
    obtain ⟨hrom, hsize, hpend, -⟩ := exec_keeps h
    exact ⟨hrom, hsize, hpend⟩
  | _ => exact ⟨rfl, rfl, rfl⟩

/-- What a step has done: nothing with no transaction pending, else what the first one does to the state whose queue
has lost it (10_state.md R28). -/
theorem step_eq_next {s t : State} (h : step s = .next t) :
    t = s ∨ ∃ tx rest, HostEffect tx (s.afterTake rest) t := by
  cases hp : s.pending with
  | nil =>
    simp only [step, serveHost, hp] at h
    exact .inl (Host.Outcome.next.inj h).symm
  | cons tx rest =>
    rw [step_of_pending hp] at h
    exact .inr ⟨tx, rest, hostEffect_of_transact h⟩

/-! ### The invariant -/

/-- A bit write keeps the invariant: it stores at an admitted cursor only (20_memory.md R35). -/
theorem State.Inv.writeBit {s : State} (h : s.Inv) (b : Bit) : (writeBit b s).Inv := by
  rcases writeBit_cases b s with ⟨ha, hw⟩ | ⟨-, hw⟩ <;> rw [hw]
  · exact (h.setBufByte (byteWithBit b s) ((s.admits_iff_byteIndex_lt s.wcur).1 ha)).congr rfl rfl rfl
  · exact h.congr rfl rfl rfl

theorem State.Inv.writeBits {s : State} (h : s.Inv) (bs : List Bit) : (writeBits bs s).Inv := by
  induction bs generalizing s with
  | nil => exact h
  | cons b bs ih =>
    rw [writeBits_cons]
    split
    · exact h.writeBit b
    · exact ih (h.writeBit b)

theorem State.Inv.effect {s : State} (h : s.Inv) (i : Instr) : (effect i s).Inv := by
  cases i with
  | wrbit bit => exact h.writeBit bit
  | enc sym =>
    rcases encodeSymbol_cases sym s with ⟨-, he⟩ | ⟨-, he⟩ <;> rw [effect_enc, he]
    · exact h.writeBits _
    · exact h.congr rfl rfl rfl
  | rdbit => rcases effect_rdbit_cases s with ⟨-, he⟩ | ⟨-, he⟩ <;> rw [he] <;> exact h.congr rfl rfl rfl
  | dec =>
    obtain ⟨hrom, hsize, hbuf, -⟩ := decodeLoop_keeps Config.depthBits emptyAcc s
    exact h.congr hrom hsize hbuf
  | lksym | lkpat => exact h.congr rfl rfl rfl

theorem State.Inv.exec {i : Instr} {s t : State} (h : s.Inv) (he : exec i s = .next t) : t.Inv := by
  obtain rfl | ⟨-, rfl⟩ := exec_next_cases he
  · exact h
  · exact h.effect i

theorem State.Inv.hostEffect {tx : HostTx} {s t : State} (h : s.Inv) (he : HostEffect tx s t) : t.Inv := by
  cases he with
  | command w he => exact h.exec he
  | writeByte v ha => exact h.setBufByte v ha
  | _ => exact h.congr rfl rfl rfl

end Sys2Proof.Machine

namespace Sys2Proof

open Machine

/-- Settles O46: a step is nothing or a transaction; a transaction stores in BUF only inside its bounds. -/
theorem everyStepKeepsTheInvariant : Obligations.EveryStepKeepsTheInvariant := by
  intro s t hinv h
  rcases step_eq_next h with rfl | ⟨tx, rest, he⟩
  · exact hinv
  · have hrest : (s.afterTake rest).Inv := hinv.congr rfl rfl rfl
    exact hrest.hostEffect he

/-- Settles O47: nothing is listed in BUF, and the two parameters are admissible by their types. -/
theorem resetStateIsSafe : Obligations.ResetStateIsSafe := by
  refine ⟨⟨State.reset_buf_wf, nofun, Nat.le_add_left 1 _, ?_, Subtype.property _⟩, rfl⟩
  exact Config.lastBufAddress.isLt

/-- Settles O48: by what each transaction leaves alone. -/
theorem romAndBufSizeNeverChange : Obligations.RomAndBufSizeNeverChange := by
  intro s t h
  rcases step_eq_next h with rfl | ⟨tx, rest, he⟩
  · exact ⟨rfl, rfl⟩
  · obtain ⟨hrom, hsize, -⟩ := he.keeps
    exact ⟨hrom, hsize⟩

/-- Settles O49: every command's answer is written out by `exec_eq`. -/
theorem everyCommandCompletes : Obligations.EveryCommandCompletes :=
  fun i s => ⟨whenRunning (effect i) s, exec_eq i s⟩

/-- Settles O11: the queue by what each transaction leaves alone; the response transaction by transaction. -/
theorem transactionsLeaveTheHostsQueue : Obligations.TransactionsLeaveTheHostsQueue := by
  intro tx s t h
  have he := hostEffect_of_transact h
  obtain ⟨-, -, hpend⟩ := he.keeps
  refine ⟨hpend, fun hhrd hbrd => ?_⟩
  cases he with
  | readRegister reg => exact absurd rfl (hhrd reg)
  | readByte => exact absurd rfl (hbrd _)
  | command w he =>
    obtain ⟨-, -, -, hresp⟩ := exec_keeps he
    exact hresp
  | _ => rfl

end Sys2Proof
end

section
/-! The host's port (10_state.md R20, R25 to R28; 20_memory.md R39) and the order of the fault tests
(60_exceptions.md R97, R99): when a transaction stops the model, the fields of `STATUS`, and the statements settled
from them and from the laws of `step`. -/

namespace Sys2Proof.Machine

/-- Every register write answers a next state. -/
theorem exists_next_of_hwr (reg : HostReg) (v : Word) (s : State) : ∃ t, transact (.hwr reg v) s = .next t := by
  cases reg with
  | cmd =>
    rw [transact_hwr_cmd, execWord]
    split
    · exact ⟨_, exec_eq _ s⟩
    · exact ⟨_, rfl⟩
  | wcur | rcur | res | status => exact ⟨_, rfl⟩

/-- A transaction completes, or it is an access outside BUF and stops under that name (log entry 5). -/
theorem transact_cases (tx : HostTx) (s : State) :
    (∃ t, transact tx s = .next t)
    ∨ ∃ a, s.bufBytes ≤ a ∧ transact tx s = .fault (.outsideBuf a) ∧ (tx = .brd a ∨ ∃ v, tx = .bwr a v) := by
  cases tx with
  | hrd reg => exact .inl ⟨_, rfl⟩
  | hwr reg v => exact .inl (exists_next_of_hwr reg v s)
  | reset => exact .inl ⟨_, rfl⟩
  | brd a =>
    rcases Nat.lt_or_ge a s.bufBytes with hlt | hge
    · exact .inl ⟨_, hostReadByte_of_lt hlt⟩
    · exact .inr ⟨a, hge, hostReadByte_of_ge hge, .inl rfl⟩
  | bwr a v =>
    rcases Nat.lt_or_ge a s.bufBytes with hlt | hge
    · exact .inl ⟨_, hostWriteByte_of_lt v hlt⟩
    · exact .inr ⟨a, hge, hostWriteByte_of_ge v hge, .inr ⟨v, rfl⟩⟩

theorem step_of_idle {s : State} (h : s.pending = []) : step s = .next s := by
  simp only [step, serveHost, h]

/-- A step whose transaction writes a command's word to `CMD` executes the command (10_state.md R27, R28). -/
theorem step_of_command {s : State} {w : Word} {rest : List HostTx} {i : Instr}
    (hp : s.pending = .hwr .cmd w :: rest) (hd : decode w = .ok i) : step s = exec i (s.afterTake rest) :=
  (step_of_pending hp).trans (execWord_of_ok hd _)

/-- A run goes on from the state its first step answers. -/
theorem run_succ_of_next {s t : State} (k : Nat) (h : step s = .next t) :
    Sys2Proof.core.run (k + 1) s = Sys2Proof.core.run k t := by
  have hcore : Sys2Proof.core.step s = .next t := h
  simp only [Host.Core.run, hcore]

theorem transact_ne_refused (tx : HostTx) (s : State) (r : Refusal) : transact tx s ≠ .refused r := by
  rcases transact_cases tx s with ⟨t, h⟩ | ⟨a, -, h, -⟩ <;> rw [h] <;> exact nofun

/-- A transaction stops the model exactly if it accesses an address that is not BUF's (log entry 5). -/
theorem transact_eq_fault_iff {tx : HostTx} {s : State} {f : Fault} : transact tx s = .fault f ↔
    ∃ a, s.bufBytes ≤ a ∧ f = .outsideBuf a ∧ (tx = .brd a ∨ ∃ v, tx = .bwr a v) := by
  constructor
  · intro h
    rcases transact_cases tx s with ⟨t, ht⟩ | ⟨a, hle, ha, htx⟩
    · rw [ht] at h
      cases h
    · rw [ha] at h
      cases h
      exact ⟨a, hle, rfl, htx⟩
  · rintro ⟨a, hle, rfl, rfl | ⟨v, rfl⟩⟩
    · exact hostReadByte_of_ge hle
    · exact hostWriteByte_of_ge v hle

/-- An operand of 256 or more is no symbol (43_encoder.md R80). -/
theorem isSymbol_eq_false {sym : BitVec 24} (h : 256 ≤ sym.toNat) : isSymbol sym = false :=
  decide_eq_false (Nat.not_lt.2 h)

/-- `ENC` of an operand that is no symbol raises `SYM_RANGE` and does nothing else (43_encoder.md R80). -/
theorem exec_enc_of_range {sym : BitVec 24} (h : 256 ≤ sym.toNat) {s : State} (hr : s.Running) :
    exec (.enc sym) s = .next (s.raise .symRange) := by
  rw [exec_enc_of_running sym hr, encodeSymbol, isSymbol_eq_false h, if_neg Bool.false_ne_true]

/-- `STATUS` as a number (10_state.md R20). -/
theorem State.toNat_statusWord (s : State) : s.statusWord.toNat = s.dx.toNat * 8 + s.fault.code.toNat := by
  simp only [State.statusWord, toNat_append_eq, BitVec.toNat_ofBool, BitVec.toNat_ofNat]
  omega

/-- Bits 2:0 of `STATUS` are the fault's code (10_state.md R20). -/
theorem State.statusWord_fault (s : State) : s.statusWord.extractLsb' 0 3 = s.fault.code := by
  rw [field_eq_iff, s.toNat_statusWord]
  omega

/-- Bit 3 of `STATUS` is `DX` (10_state.md R20). -/
theorem State.statusWord_dx (s : State) : s.statusWord.getLsbD 3 = s.dx := by
  have hcode := s.fault.code.isLt
  rw [BitVec.getLsbD, s.toNat_statusWord, Nat.testBit_eq_decide_div_mod_eq]
  cases s.dx <;> simp <;> omega

/-- Bits 31:4 of `STATUS` read as 0 (10_state.md R20). -/
theorem State.statusWord_high (s : State) : s.statusWord.extractLsb' 4 28 = 0#28 := by
  have hcode := s.fault.code.isLt
  have hdx := s.dx.toNat_le
  rw [field_eq_iff, s.toNat_statusWord, BitVec.toNat_zero]
  omega

/-- The codes of 60_exceptions.md R95 are 0 to 4. -/
theorem FaultCode.code_le (f : FaultCode) : f.code.toNat ≤ 4 := by
  cases f <;> decide

theorem FaultCode.code_eq_zero_iff (f : FaultCode) : f.code = 0#3 ↔ f = .noFault := by
  cases f <;> decide

end Sys2Proof.Machine

namespace Sys2Proof

open Machine

/-- Settles O7: the five offsets by evaluation, every other by the branches of `HostReg.ofOffset`. -/
theorem offsetsNameTheFiveRegisters : Obligations.OffsetsNameTheFiveRegisters := by
  refine ⟨rfl, rfl, rfl, rfl, rfl, fun offset h => ?_, rfl, rfl, rfl, rfl, rfl⟩
  unfold HostReg.ofOffset
  split
  · simp at h
  · simp at h
  · simp at h
  · simp at h
  · simp at h
  · rfl

/-- Settles O8: `step_of_pending`, the queue's update written out. -/
theorem stepPerformsTheNextTransaction : Obligations.StepPerformsTheNextTransaction :=
  fun _ _ _ h => step_of_pending h

/-- Settles O9: `step_of_command`, the queue's update written out. -/
theorem stepRunsTheDecodedCommand : Obligations.StepRunsTheDecodedCommand :=
  fun _ _ _ _ hp hd => step_of_command hp hd

/-- Settles O10: the word placed is the word itself, and the step takes it from the queue again. -/
theorem placedWordIsTheNextCommand : Obligations.PlacedWordIsTheNextCommand := by
  intro s w
  have hw : BitVec.ofNat 32 (w.toNat % 2 ^ 32) = w := by
    rw [Nat.mod_eq_of_lt w.isLt, BitVec.ofNat_toNat, BitVec.setWidth_eq]
  have hp : (s.withFetchWord 32 w.toNat).pending = .hwr .cmd w :: s.pending := by
    rw [State.withFetchWord, hw]
  exact step_of_pending hp

/-- Settles O12: `step_of_idle`. -/
theorem idleEngineStaysAsItIs : Obligations.IdleEngineStaysAsItIs := fun _ h => step_of_idle h

/-- Settles O13: register by register, the value is `hostRead`'s. -/
theorem hostReadsReturnTheRegister : Obligations.HostReadsReturnTheRegister := by
  intro s reg
  cases reg <;> rfl

/-- Settles O15: both accesses lie inside BUF, and a byte written is read at its own address alone. -/
theorem hostReachesEveryBufByte : Obligations.HostReachesEveryBufByte := by
  intro s a ha
  refine ⟨hostReadByte_of_lt ha, fun v => ⟨s.setBufByte a v, hostWriteByte_of_lt v ha, ?_, fun b hb => ?_, rfl⟩⟩
  · rw [State.bufByte_setBufByte, if_pos rfl]
  · rw [State.setBufByte_buf, Memory.read_write_other _ _ hb]

/-- Settles O16: with nothing pending a step completes; else it is the transaction that stops. -/
theorem onlyHostAccessOutsideBufStops : Obligations.OnlyHostAccessOutsideBufStops := by
  intro s
  cases hp : s.pending with
  | nil => simp [step_of_idle hp]
  | cons tx rest =>
    rw [step_of_pending hp]
    refine ⟨fun f => ?_, transact_ne_refused tx _⟩
    rw [transact_eq_fault_iff]
    simp only [List.cons.injEq, State.afterTake_bufBytes]
    constructor
    · rintro ⟨a, hle, hf, htx⟩
      exact ⟨a, rest, hle, hf, htx.imp (fun h => ⟨h, rfl⟩) (fun ⟨v, h⟩ => ⟨v, h, rfl⟩)⟩
    · rintro ⟨a, _, hle, hf, htx⟩
      exact ⟨a, hle, hf, htx.imp And.left (fun ⟨v, h, _⟩ => ⟨v, h⟩)⟩

/-- Settles O19: writes and commands by the laws of the halted engine, reads and BUF accesses as on any engine. -/
theorem haltedEngineIgnoresTheHost : Obligations.HaltedEngineIgnoresTheHost :=
  fun _ h => ⟨fun reg v => transact_hwr_of_halted reg v h, fun i => exec_of_halted i h, fun _ => rfl,
    fun _ ha => hostReadByte_of_lt ha, fun _ v ha => hostWriteByte_of_lt v ha⟩

/-- Settles O21: halted, illegal, out of range, each by its own law. -/
theorem faultTestsComeInOrder : Obligations.FaultTestsComeInOrder := by
  intro s w
  refine ⟨execWord_of_halted w, fun hr ⟨e, he⟩ => execWord_of_error he hr, fun hr sym hsym hd => ?_⟩
  exact (execWord_of_ok hd s).trans (exec_enc_of_range hsym hr)

/-- Settles O22: field by field, for the state itself and for the states with a fault raised. -/
theorem statusFieldsReadAsTheSpecSays : Obligations.StatusFieldsReadAsTheSpecSays := by
  intro s
  refine ⟨s.statusWord_fault, s.statusWord_dx, s.statusWord_high, s.fault.code_le, ?_, State.statusWord_fault _,
    State.statusWord_fault _, State.statusWord_fault _, State.statusWord_fault _⟩
  rw [s.statusWord_fault, FaultCode.code_eq_zero_iff, State.Running]

/-- Settles O37: running, `exec_enc_of_range`; halted, nothing. -/
theorem encOutOfRangeWritesNothing : Obligations.EncOutOfRangeWritesNothing :=
  fun _ _ h => ⟨exec_enc_of_range h, exec_of_halted _⟩

end Sys2Proof
end

section
/-! The code table (10_state.md R14; 40_code_table.md R60 to R64): what a lookup finds in an admissible table, from
either end, and the two packings of a ROM word. -/

namespace Sys2Proof.Machine

/-- The pattern a lookup matched determines the entry's, bit 11 being 0 (40_code_table.md R64 b). -/
theorem lookupPat_some_entry {t : Table} {p : BitVec 12} {l : BitVec 4} {s : Sym} (h : lookupPat t p l = some s) :
    t.entry s = ⟨p.extractLsb' 0 11, l⟩ ∧ p.getLsbD 11 = false := by
  obtain ⟨rfl, rfl⟩ := lookupPat_some h
  constructor
  · refine CodeEntry.ext (Eq.symm ?_) rfl
    rw [field_eq_iff, BitVec.toNat_setWidth_of_le (by decide)]
    omega
  · simp

/-- An entry's pattern is not found at a length shorter than its own: such an entry's code would begin its code
(10_state.md R12 W6, 40_code_table.md R64 d). -/
theorem lookupPat_eq_none_of_shorter {t : Table} (ht : t.Admissible) {s : Sym} {l : BitVec 4}
    (h : l.toNat < (t.entry s).len.toNat) : lookupPat t ((t.entry s).pat.setWidth 12) l = none := by
  rw [lookupPat_none]
  rintro b ⟨rfl, hp⟩
  have hpat : (t.entry b).pat = (t.entry s).pat := by
    have := congrArg (BitVec.setWidth 11) hp
    simpa using this
  have hne : b ≠ s := by
    rintro rfl
    exact Nat.lt_irrefl _ h
  exact ht.prefixFree b s hne h.le (by rw [hpat])

/-- A search from symbol 255 down, its index counted from that end (40_code_table.md R61). -/
def lookupPatDown (t : Table) (p : BitVec 12) (l : BitVec 4) : Option Sym :=
  (t.toList.reverse.findIdx? (entryMatches p l)).map (fun n => BitVec.ofNat 8 (255 - n))

/-- What the search from above finds matches. -/
theorem lookupPatDown_some {t : Table} {p : BitVec 12} {l : BitVec 4} {s : Sym} (h : lookupPatDown t p l = some s) :
    (t.entry s).len = l ∧ (t.entry s).pat.setWidth 12 = p := by
  rw [lookupPatDown, Option.map_eq_some_iff] at h
  obtain ⟨n, hn, rfl⟩ := h
  rw [List.findIdx?_eq_some_iff_getElem] at hn
  obtain ⟨hlt, hm, -⟩ := hn
  have hsym : (BitVec.ofNat 8 (255 - n)).toNat = 255 - n := by
    rw [BitVec.toNat_ofNat]
    omega
  rw [← entryMatches_iff]
  simpa [Table.entry, hsym] using hm

/-- If the search from above finds nothing, no entry matches. -/
theorem lookupPatDown_none {t : Table} {p : BitVec 12} {l : BitVec 4} (h : lookupPatDown t p l = none) (s : Sym) :
    ¬ ((t.entry s).len = l ∧ (t.entry s).pat.setWidth 12 = p) := by
  rw [lookupPatDown, Option.map_eq_none_iff, List.findIdx?_eq_none_iff] at h
  have hmem : t.entry s ∈ t.toList.reverse := by simp [Table.entry]
  rw [← entryMatches_iff, h _ hmem]
  exact Bool.false_ne_true

/-- Bits 11:0 of `LKSYM`'s result are the pattern (40_code_table.md R62). -/
theorem entryWord_pat12 (e : CodeEntry) : (entryWord e).extractLsb' 0 12 = e.pat.setWidth 12 := by
  rw [field_eq_iff, toNat_entryWord, BitVec.toNat_setWidth_of_le (by decide)]
  have := e.pat.isLt
  omega

end Sys2Proof.Machine

namespace Sys2Proof

open Machine

/-- The packing as a pair loses nothing, whatever the entry (10_state.md R14). -/
theorem CodeEntry.unpackPair_packPair (e : CodeEntry) : unpackPair e.packPair = e := by
  have hpack : e.packPair.toNat = e.len.toNat * 2 ^ 11 + e.pat.toNat := toNat_append_eq _ _
  have := e.pat.isLt
  refine CodeEntry.ext ((field_eq_iff _ 0 11 _).2 ?_) ((field_eq_iff _ 11 4 _).2 ?_)
  · rw [hpack]
    omega
  · rw [hpack]
    omega

/-- The marker bit stands above a normalised pattern (10_state.md R12 W4, R14). -/
theorem CodeEntry.toNat_packMarker {e : CodeEntry} (hlen : e.len.toNat ≤ 11) (hpat : e.pat.toNat < 2 ^ e.len.toNat) :
    e.packMarker.toNat = 2 ^ e.len.toNat + e.pat.toNat := by
  have hfit : 2 ^ e.len.toNat < 2 ^ 12 := Nat.pow_lt_pow_right (by decide) (by omega)
  have hmark : (1#12 <<< e.len).toNat = 2 ^ e.len.toNat := by
    rw [BitVec.shiftLeft_eq', BitVec.toNat_shiftLeft, BitVec.toNat_ofNat, Nat.shiftLeft_eq, Nat.one_mod, Nat.one_mul,
      Nat.mod_eq_of_lt hfit]
  rw [packMarker, BitVec.toNat_or, hmark, BitVec.toNat_setWidth_of_le (by decide)]
  simpa using (Nat.two_pow_add_eq_or_of_lt hpat 1).symm

/-- The packing with a marker bit loses nothing of a normalised entry (10_state.md R14). -/
theorem CodeEntry.unpackMarker_packMarker {e : CodeEntry} (hlen : e.len.toNat ≤ 11)
    (hpat : e.pat.toNat < 2 ^ e.len.toNat) : unpackMarker e.packMarker = e := by
  have hpack := toNat_packMarker hlen hpat
  have hlog : Nat.log2 (2 ^ e.len.toNat + e.pat.toNat) = e.len.toNat := by
    rw [Nat.log2_eq_iff (by positivity), pow_succ]
    omega
  rw [unpackMarker, hpack, hlog, Nat.add_sub_cancel_left, BitVec.ofNat_toNat, BitVec.ofNat_toNat,
    BitVec.setWidth_eq, BitVec.setWidth_eq]

/-- Settles O30: what is found by `lookupPat_of_match`, what it is by `lookupPat_some_entry`; T1's cases by its
entries. -/
theorem lookupFindsExactlyTheEntries : Obligations.LookupFindsExactlyTheEntries := by
  have hentry : fixtureT1.entry 1#8 = ⟨0x002#11, 4#4⟩ := by decide
  refine ⟨fun t ht => ⟨fun s => lookupPat_of_match ht rfl rfl, fun p l s => lookupPat_some_entry,
    fun p l hl => lookupPat_eq_none_of_not_code ht (by tauto)⟩, ?_, ?_, ?_⟩
  · exact lookupPat_of_match fixtureT1_admissible (by rw [hentry]) (by rw [hentry]; rfl)
  · have := lookupPat_eq_none_of_shorter fixtureT1_admissible (s := 1#8) (l := 2#4) (by rw [hentry]; decide)
    rwa [hentry] at this
  · have := lookupPat_eq_none_of_shorter fixtureT1_admissible (s := 1#8) (l := 3#4) (by rw [hentry]; decide)
    rwa [hentry] at this

/-- Settles O31: either search finds the one symbol that matches, or nothing when none does. -/
theorem searchDirectionCannotBeObserved : Obligations.SearchDirectionCannotBeObserved := by
  intro t p l ht
  change lookupPatDown t p l = lookupPat t p l
  cases h : lookupPatDown t p l with
  | none => exact (lookupPat_none.2 (lookupPatDown_none h)).symm
  | some s =>
    obtain ⟨hl, hp⟩ := lookupPatDown_some h
    exact (lookupPat_of_match ht hl hp).symm

/-- Settles O32: the fields `LKSYM` returned are the entry's, and the entry is found. -/
theorem lksymThenLkpatFindsTheSymbol : Obligations.LksymThenLkpatFindsTheSymbol := by
  intro s sym hr ht
  refine ⟨_, exec_lksym_of_running sym hr, _, exec_lkpat_of_running _ _ hr, ?_⟩
  have hfind : lookupPat s.rom ((s.rom.entry sym).pat.setWidth 12) (s.rom.entry sym).len = some sym :=
    lookupPat_of_match ht rfl rfl
  simp only [State.setRes_res, State.setRes_rom, lookupSym, entryWord_pat12, entryWord_len, hfind, foundWord_some]

/-- Settles O33: each packing by its own law, the marker's with W2 and W4. -/
theorem romPackingsLoseNothing : Obligations.RomPackingsLoseNothing := by
  intro t s ht
  obtain ⟨-, hmax⟩ := ht.lengths s
  exact ⟨CodeEntry.unpackPair_packPair _, CodeEntry.unpackMarker_packMarker hmax (ht.normalised s)⟩

end Sys2Proof
end

section
/-! Runs of bit writes (41_bit_writer.md R72), `ENC` (43_encoder.md R80, R81), and bits read back (42_bit_reader.md
R77): the frame of a run, `WRBIT` and `RDBIT` in sequence as runs, and the statements settled from them. -/

namespace Sys2Proof.Machine

/-- A run of bit writes changes nothing but BUF, `WCUR` and `STATUS.FAULT` (41_bit_writer.md R70). -/
theorem writeBits_frame (bs : List Bit) (s : State) :
    { writeBits bs s with wcur := s.wcur, buf := s.buf, fault := s.fault } = s := by
  obtain ⟨hrom, hsize, hrcur, hres, hdx, hpend, hresp⟩ := writeBits_keeps bs s
  simp only [hrom, hsize, hrcur, hres, hdx, hpend, hresp]

/-- A run that ends running has recorded no fault either. -/
theorem writeBits_frame_of_running {bs : List Bit} {s : State} (hr : s.Running) (ht : (writeBits bs s).Running) :
    { writeBits bs s with wcur := s.wcur, buf := s.buf } = s := by
  have hfault : (writeBits bs s).fault = s.fault := ht.trans hr.symm
  have := writeBits_frame bs s
  rwa [← hfault] at this

/-- The first command of a sequence has its effect on a running engine, and the sequence goes on. -/
theorem runCommands_cons (i : Instr) (is : List Instr) (s : State) :
    runCommands (i :: is) s = runCommands is (whenRunning (effect i) s) := by
  cases i <;> rfl

/-- A halted engine ignores every command of a sequence (60_exceptions.md R97). -/
theorem runCommands_of_halted (is : List Instr) {s : State} (h : ¬ s.Running) : runCommands is s = .next s := by
  induction is with
  | nil => rfl
  | cons i is ih =>
    rw [runCommands_cons, whenRunning_of_halted _ s h]
    exact ih

theorem runCommands_cons_of_next {i : Instr} {s t : State} (is : List Instr) (h : exec i s = .next t) :
    runCommands (i :: is) s = runCommands is t := by
  rw [exec_eq] at h
  rw [runCommands_cons, Host.Outcome.next.inj h]

/-- Successive `WRBIT` are one run of bit writes, whether or not it meets the end of BUF (41_bit_writer.md R72). -/
theorem runCommands_wrbit (bs : List Bit) {s : State} (hr : s.Running) :
    runCommands (bs.map Instr.wrbit) s = .next (writeBits bs s) := by
  induction bs generalizing s with
  | nil => rfl
  | cons b bs ih =>
    rw [List.map_cons, runCommands_cons_of_next _ (exec_wrbit_of_running b hr), writeBits_cons]
    by_cases hw : (writeBit b s).Running
    · rw [if_neg (by simpa using hw)]
      exact ih hw
    · rw [if_pos (by simpa using hw)]
      exact runCommands_of_halted _ hw

/-- A bit of BUF is kept where its byte is. -/
theorem State.bit_eq_of_read {s t : State} {a : Nat} (h : t.buf.read (a / 8) = s.buf.read (a / 8)) :
    t.bit a = s.bit a := by
  refine State.bit_congr ?_
  rw [State.bufByte, State.bufByte, h]

/-- Where a run meets an unchanged first byte and where it does not, bit by bit (70_reset_and_hazards.md R119). -/
theorem bitAfterRun_clean_or_dirty (s : State) (c : Nat) (bs : List Bit) {m : Nat} (hm : m < bs.length) :
    (c % 8 = 0 ∨ c / 8 < (c + m) / 8 → bitAfterRun s c bs (c + m) = bs[m])
    ∧ (c % 8 ≠ 0 → (c + m) / 8 = c / 8 → bitAfterRun s c bs (c + m) = s.bit (c + m) ||| bs[m]) := by
  rw [bitAfterRun_getElem s c bs hm]
  refine ⟨fun h => ?_, fun h0 hb => ?_⟩
  · rw [if_pos h, BitVec.zero_or]
  · rw [if_neg (by omega)]

/-- The bits above a run in its last byte, where that byte was cleared and where it was not (41_bit_writer.md R72). -/
theorem bitAfterRun_above_clean_or_dirty (s : State) {c a : Nat} {bs : List Bit} (hne : bs ≠ [])
    (ha : c + bs.length ≤ a) (hd : a / 8 = (c + bs.length - 1) / 8) :
    (c % 8 = 0 ∨ c / 8 < a / 8 → bitAfterRun s c bs a = 0#1)
    ∧ (c % 8 ≠ 0 → a / 8 = c / 8 → bitAfterRun s c bs a = s.bit a) := by
  rw [bitAfterRun_above s hne ha hd]
  refine ⟨fun h => if_pos h, fun h0 hb => if_neg (by omega)⟩

theorem runCommands_append {is : List Instr} {s t : State} (js : List Instr) (h : runCommands is s = .next t) :
    runCommands (is ++ js) s = runCommands js t := by
  induction is generalizing s with
  | nil =>
    cases h
    rfl
  | cons i is ih =>
    rw [runCommands_cons] at h
    rw [List.cons_append, runCommands_cons]
    exact ih h

/-- Successive `RDBIT` inside BUF: the cursor behind the bits read, the last of them in `RES` (42_bit_reader.md R76,
R77). -/
theorem runCommands_rdbit (n : Nat) {s : State} (hr : s.Running) (hB : s.bufBytes ≤ 2 ^ 28)
    (hroom : s.rcur.toNat + n < 8 * s.bufBytes) :
    runCommands (List.replicate (n + 1) .rdbit) s
      = .next ((s.setRcur (s.rcur + BitVec.ofNat 32 (n + 1))).setRes ((s.bit (s.rcur.toNat + n)).setWidth 32)) := by
  induction n with
  | zero =>
    have hadm : s.admits s.rcur = true := (State.admits_iff _ _).2 hroom
    rw [List.replicate_one, runCommands_cons_of_next _ (exec_rdbit_of_admits hr hadm), bitAtCursor_eq]
    rfl
  | succ n ih =>
    rw [List.replicate_succ', runCommands_append _ (ih (by omega))]
    generalize ht : (s.setRcur (s.rcur + BitVec.ofNat 32 (n + 1))).setRes _ = t
    have hcur : t.rcur.toNat = s.rcur.toNat + (n + 1) := by
      rw [← ht]
      exact toNat_add_ofNat (by omega)
    have hadm : t.admits t.rcur = true := by
      rw [State.admits_iff, hcur, ← ht]
      exact hroom
    have hrun : t.Running := by
      rw [← ht]
      exact hr
    rw [runCommands_cons_of_next _ (exec_rdbit_of_admits hrun hadm), bitAtCursor_eq, hcur, ← ht]
    have hstep : s.rcur + BitVec.ofNat 32 (n + 1) + 1#32 = s.rcur + BitVec.ofNat 32 (n + 1 + 1) := by
      rw [BitVec.add_assoc, ← BitVec.ofNat_add]
    simp only [State.setRes_rcur, State.setRcur_rcur, hstep]
    rfl

/-! ### `ENC` -/

/-- A code is never empty in an admissible table (10_state.md R12 W2). -/
theorem codeBits_ne_nil {s : State} (ht : s.rom.Admissible) (sym : Sym) : codeBits (s.rom.entry sym) ≠ [] := by
  obtain ⟨hmin, -⟩ := ht.lengths sym
  refine List.ne_nil_of_length_pos ?_
  rw [codeBits_length, State.codeLen]
  omega

/-- The state after the code of `sym` is written at `WCUR`. -/
def State.encoded (s : State) (sym : Sym) : State := writeBits (codeBits (s.rom.entry sym)) s

theorem exec_encOf (sym : Sym) {s : State} (hr : s.Running) : exec (encOf sym) s = .next (s.encoded sym) :=
  exec_encOf_of_running sym hr

/-- `ENC` with room in BUF, told whole (43_encoder.md R80): the cursor, the running engine, every bit of BUF, every byte
outside the code's, the frame. -/
theorem encoded_run {s : State} (sym : Sym) (hinv : s.Inv) (hr : s.Running)
    (hroom : s.wcur.toNat + s.codeLen sym ≤ 8 * s.bufBytes) :
    (s.encoded sym).wcur.toNat = s.wcur.toNat + s.codeLen sym
    ∧ (s.encoded sym).Running
    ∧ (∀ a, (s.encoded sym).bit a = bitAfterRun s s.wcur.toNat (codeBits (s.rom.entry sym)) a)
    ∧ (∀ a, a < s.wcur.toNat / 8 ∨ (s.wcur.toNat + s.codeLen sym - 1) / 8 < a →
        (s.encoded sym).buf.read a = s.buf.read a)
    ∧ { s.encoded sym with wcur := s.wcur, buf := s.buf } = s := by
  have hlen := codeBits_length s sym
  obtain ⟨hw, hrun, hbits, hbytes⟩ := writeBits_run (codeBits (s.rom.entry sym)) hr hinv.sizeMax (by omega)
  have hpos := List.length_pos_iff.2 (codeBits_ne_nil hinv.table sym)
  exact ⟨by rw [← hlen]; exact hw, hrun, hbits, fun a ha => hbytes a (by omega), writeBits_frame_of_running hr hrun⟩

/-- On fresh ground the code lies exactly where the cursor was (43_encoder.md R81). -/
theorem encoded_codeAt {s : State} (sym : Sym) (hinv : s.Inv) (hr : s.Running) (hf : s.FreshAt s.wcur.toNat)
    (hroom : s.wcur.toNat + s.codeLen sym ≤ 8 * s.bufBytes) : (s.encoded sym).CodeAt s.wcur.toNat sym := by
  obtain ⟨-, -, hbits, -, -⟩ := encoded_run sym hinv hr hroom
  have hcode : ∀ i, i < s.codeLen sym → (s.encoded sym).bit (s.wcur.toNat + i) = s.codeBit sym i := by
    intro i hi
    have hi' : i < (codeBits (s.rom.entry sym)).length := (codeBits_length s sym).symm ▸ hi
    rw [hbits, bitAfterRun_of_fresh hf hi', codeBits_getElem]
  have hrom : (s.encoded sym).rom = s.rom := (writeBits_keeps _ s).1
  unfold State.CodeAt State.codeLen State.codeBit
  rw [hrom]
  exact hcode

/-- On fresh ground the bits above the code in its last byte are 0 (41_bit_writer.md R72). -/
theorem encoded_above_fresh {s : State} (sym : Sym) (hinv : s.Inv) (hr : s.Running) (hf : s.FreshAt s.wcur.toNat)
    (hroom : s.wcur.toNat + s.codeLen sym ≤ 8 * s.bufBytes) {a : Nat} (ha : s.wcur.toNat + s.codeLen sym ≤ a)
    (hd : a / 8 = (s.wcur.toNat + s.codeLen sym - 1) / 8) : (s.encoded sym).bit a = 0#1 := by
  obtain ⟨-, -, hbits, -, -⟩ := encoded_run sym hinv hr hroom
  rw [← codeBits_length s sym] at ha hd
  rw [hbits, bitAfterRun_above_fresh hf (codeBits_ne_nil hinv.table sym) ha hd]

/-- Fresh ground depends on its byte alone. -/
theorem freshAt_congr {s t : State} {a : Nat} (h : t.buf.read (a / 8) = s.buf.read (a / 8)) :
    t.FreshAt a ↔ s.FreshAt a := by
  unfold State.FreshAt State.bufByte
  rw [h]

/-- Ground is fresh where its bits from there up to the end of the byte are 0. -/
theorem freshAt_of_bits {s : State} {a : Nat} (h : ∀ b, a ≤ b → b / 8 = a / 8 → s.bit b = 0#1) : s.FreshAt a := by
  refine .inr fun k hk hk8 => ?_
  have := h (a / 8 * 8 + k) (by omega) (by omega)
  rwa [State.bit, show (a / 8 * 8 + k) / 8 = a / 8 by omega, show (a / 8 * 8 + k) % 8 = k by omega] at this

end Sys2Proof.Machine

namespace Sys2Proof

open Machine

/-- Settles O25: `WRBIT` in sequence is a run of bit writes; each clause is a part of what the run leaves. -/
theorem bitRunsLandAtTheirAddresses : Obligations.BitRunsLandAtTheirAddresses := by
  intro s bs hinv hr hroom
  obtain ⟨hw, hrun, hbits, hbytes⟩ := writeBits_run bs hr hinv.sizeMax hroom
  refine ⟨_, runCommands_wrbit bs hr, hw, fun m hm => ?_, fun a hne ha hd => ?_, fun a ha _ hd => ?_, hbytes,
    writeBits_frame_of_running hr hrun⟩
  · rw [hbits]
    exact bitAfterRun_clean_or_dirty s _ bs hm
  · rw [hbits]
    exact bitAfterRun_above_clean_or_dirty s hne ha hd
  · rw [hbits]
    exact bitAfterRun_below s bs ha hd

/-- Settles O26: on fresh ground the run's bits stand as written, and `RDBIT` in sequence reads them. -/
theorem bitsReadBackAsWritten : Obligations.BitsReadBackAsWritten := by
  intro s bs hinv hr hf hroom
  obtain ⟨-, hrun, hbits, -⟩ := writeBits_run bs hr hinv.sizeMax hroom
  obtain ⟨-, hsize, -⟩ := writeBits_keeps bs s
  refine ⟨_, runCommands_wrbit bs hr, fun k hk => ?_⟩
  have hread := runCommands_rdbit k (s := (writeBits bs s).setRcur s.wcur) hrun (hsize.symm ▸ hinv.sizeMax)
    (by rw [State.setRcur_rcur, State.setRcur_bufBytes, hsize]; omega)
  refine ⟨_, hread, hrun, ?_, ?_⟩
  · rw [State.setRes_res, State.setRcur_rcur, State.bit_setRcur, hbits, bitAfterRun_of_fresh hf hk]
  · have hmax := hinv.sizeMax
    exact toNat_add_ofNat (c := s.wcur) (by omega)

/-- Settles O34: the code is a run of bits with room in BUF. -/
theorem encWritesTheCode : Obligations.EncWritesTheCode := by
  intro s sym hinv hr hroom
  obtain ⟨hw, -, hbits, hbytes, hframe⟩ := encoded_run sym hinv hr hroom
  have hlen := codeBits_length s sym
  refine ⟨_, exec_encOf sym hr, hw, fun i hi => ?_, fun a ha hd => ?_, fun a ha hd => ?_, fun hf => ⟨?_, ?_⟩, hbytes,
    hframe⟩
  · rw [hbits, ← codeBits_getElem s sym i (by omega)]
    exact bitAfterRun_clean_or_dirty s _ _ _
  · rw [hbits]
    exact bitAfterRun_below s _ ha hd
  · rw [hbits]
    rw [← hlen] at ha hd
    exact bitAfterRun_above_clean_or_dirty s (codeBits_ne_nil hinv.table sym) ha hd
  · exact encoded_codeAt sym hinv hr hf hroom
  · exact fun a ha hd => encoded_above_fresh sym hinv hr hf hroom ha hd

/-- Settles O35: the code ends in a byte whose bits above it are 0, or at a byte boundary. -/
theorem encLeavesFreshGround : Obligations.EncLeavesFreshGround := by
  intro s sym hinv hr hf hroom
  obtain ⟨hw, -⟩ := encoded_run sym hinv hr hroom.le
  refine ⟨_, exec_encOf sym hr, ?_⟩
  rw [hw]
  by_cases h0 : (s.wcur.toNat + s.codeLen sym) % 8 = 0
  · exact .inl h0
  · exact freshAt_of_bits fun b hb hd => encoded_above_fresh sym hinv hr hf hroom.le hb (by omega)

/-- Settles O36: the bytes outside the code's keep what they hold, and with them their codes and their ground. -/
theorem streamsInDisjointBytesStayApart : Obligations.StreamsInDisjointBytesStayApart := by
  intro s sym hinv hr hroom
  obtain ⟨-, -, -, hbytes, hframe⟩ := encoded_run sym hinv hr hroom
  refine ⟨_, exec_encOf sym hr, fun a other hout => ?_, fun a hout => freshAt_congr (hbytes _ hout)⟩
  exact codeAt_congr (writeBits_keeps _ s).1 fun i hi => State.bit_eq_of_read (hbytes _ (hout i hi))

end Sys2Proof
end

section
/-! `ENC` at the end of BUF (43_encoder.md R80, 60_exceptions.md R103), a written byte seen by the next transaction
(20_memory.md R41), and the frame of the storing and of the loading commands (20_memory.md R43). -/

namespace Sys2Proof.Machine

/-- A code that does not fit stops after the bits that do (43_encoder.md R80). -/
theorem encoded_overflow {s : State} (sym : Sym) (hB : s.bufBytes ≤ 2 ^ 28) (hr : s.Running) {n : Nat}
    (hend : s.wcur.toNat + n = 8 * s.bufBytes) (hn : n < s.codeLen sym) :
    s.encoded sym = (writeBits ((codeBits (s.rom.entry sym)).take n) s).raise .wrBounds := by
  rw [← codeBits_length s sym] at hn
  have hsplit : codeBits (s.rom.entry sym) = (codeBits (s.rom.entry sym)).take n
      ++ (codeBits (s.rom.entry sym))[n] :: (codeBits (s.rom.entry sym)).drop (n + 1) := by
    rw [← List.drop_eq_getElem_cons hn, List.take_append_drop]
  have hlen : ((codeBits (s.rom.entry sym)).take n).length = n := List.length_take_of_le hn.le
  rw [State.encoded]
  conv_lhs => rw [hsplit]
  exact writeBits_overflow _ _ _ hr hB (by rw [hlen]; exact hend)

/-- A code begun outside BUF writes nothing (43_encoder.md R80). -/
theorem encoded_outside {s : State} (sym : Sym) (hinv : s.Inv) (hout : 8 * s.bufBytes ≤ s.wcur.toNat) :
    s.encoded sym = s.raise .wrBounds := by
  have hadm : s.admits s.wcur = false := by
    rw [← Bool.not_eq_true, State.admits_iff]
    omega
  obtain ⟨b, bs, hcode⟩ := List.exists_cons_of_ne_nil (codeBits_ne_nil hinv.table sym)
  rw [State.encoded, hcode, writeBits_cons_of_not_admits b bs hadm]

/-- Bit `i` of the first `n` bits of a code. -/
theorem codeBits_take_getElem (s : State) (sym : Sym) (n i : Nat)
    (h : i < ((codeBits (s.rom.entry sym)).take n).length) :
    ((codeBits (s.rom.entry sym)).take n)[i] = s.codeBit sym i := by
  rw [List.getElem_take, codeBits_getElem]

/-- The line `WRBIT b` is a write to `CMD` of a word that decodes to `WRBIT b` (30_encoding.md R52). -/
theorem asmWrbit_transaction (b : Bit) :
    ∃ w, (AsmLine.wrbit b.toNat).transaction = .hwr .cmd w ∧ decode w = .ok (.wrbit b) :=
  ⟨_, rfl, decode_ofNat (toNat_encode (.wrbit b)).symm⟩

/-- A byte `BWR` writes at the read cursor is the byte the next `RDBIT` takes its bit from (20_memory.md R41). -/
theorem run_bwr_rdbit {s : State} {rest : List HostTx} {v : Byte} (hr : s.Running) (hin : byteIndex s.rcur < s.bufBytes)
    (hp : s.pending = .bwr (byteIndex s.rcur) v :: AsmLine.rdbit.transaction :: rest) :
    ∃ t, Sys2Proof.core.run 2 s = .next t
      ∧ t.res = (bitOfByte v (bitIndex s.rcur)).setWidth 32 ∧ t.pending = rest := by
  generalize hs1 : (s.afterTake (AsmLine.rdbit.transaction :: rest)).setBufByte (byteIndex s.rcur) v = s1
  have hstep1 : step s = .next s1 := by
    rw [step_of_pending hp, ← hs1]
    exact hostWriteByte_of_lt v hin
  have hp1 : s1.pending = .hwr .cmd 0x02000000#32 :: rest := by
    rw [← hs1]
    rfl
  have hbit : bitAtCursor s1 = bitOfByte v (bitIndex s.rcur) := by
    simp [bitAtCursor, ← hs1]
  have hadm : (s1.afterTake rest).admits (s1.afterTake rest).rcur = true := by
    rw [State.admits_iff_byteIndex_lt, ← hs1]
    exact hin
  have hrun : (s1.afterTake rest).Running := by
    rw [← hs1]
    exact hr
  have hstep2 := (step_of_command hp1 (decode_encode .rdbit)).trans (exec_rdbit_of_admits hrun hadm)
  refine ⟨_, (run_succ_of_next 1 hstep1).trans (run_succ_of_next 0 hstep2), ?_, rfl⟩
  rw [← hbit]
  rfl

/-- The byte `WRBIT` writes is the byte the next `BRD` reads (20_memory.md R41). -/
theorem run_wrbit_brd {s : State} {rest : List HostTx} {b : Bit} (hr : s.Running) (hin : byteIndex s.wcur < s.bufBytes)
    (hp : s.pending = (AsmLine.wrbit b.toNat).transaction :: .brd (byteIndex s.wcur) :: rest) :
    ∃ t, Sys2Proof.core.run 2 s = .next t ∧ t.response = some (.byte (byteWithBit b s)) ∧ t.pending = rest := by
  obtain ⟨w, hw, hd⟩ := asmWrbit_transaction b
  rw [hw] at hp
  generalize hs0 : s.afterTake (.brd (byteIndex s.wcur) :: rest) = s0
  have hadm : s0.admits s0.wcur = true := by
    rw [State.admits_iff_byteIndex_lt, ← hs0]
    exact hin
  have hrun : s0.Running := by
    rw [← hs0]
    exact hr
  have hstep1 : step s = .next (writeBit b s0) := by
    rw [step_of_command hp hd, hs0, exec_wrbit_of_running b hrun]
  have hp1 : (writeBit b s0).pending = .brd (byteIndex s.wcur) :: rest := by
    rw [writeBit_of_admits b hadm, ← hs0]
    rfl
  have hlt : byteIndex s.wcur < ((writeBit b s0).afterTake rest).bufBytes := by
    rw [State.afterTake_bufBytes, writeBit_of_admits b hadm, ← hs0]
    exact hin
  have hstep2 := (step_of_pending hp1).trans (hostReadByte_of_lt hlt)
  refine ⟨_, (run_succ_of_next 1 hstep1).trans (run_succ_of_next 0 hstep2), ?_, rfl⟩
  have hbyte := writeBit_bufByte_same b hadm
  rw [State.respond_response, State.bufByte_congr (State.afterTake_buf rest (writeBit b s0))]
  rw [← hs0] at hbyte ⊢
  exact congrArg (fun v => some (Response.byte v)) hbyte

/-! ### Frames -/

/-- A run of bit writes leaves every byte at none of its cursors (41_bit_writer.md R70). -/
theorem writeBits_read_other (bs : List Bit) (s : State) {a : Nat}
    (h : ∀ i, i < bs.length → a ≠ byteIndex (s.wcur + BitVec.ofNat 32 i)) :
    (writeBits bs s).buf.read a = s.buf.read a := by
  induction bs generalizing s with
  | nil => rfl
  | cons b bs ih =>
    have hfirst : a ≠ byteIndex s.wcur := by simpa using h 0 (Nat.zero_lt_succ _)
    rw [writeBits_cons]
    rcases writeBit_cases b s with ⟨hadm, hw⟩ | ⟨-, hw⟩
    · have hone : (writeBit b s).buf.read a = s.buf.read a := writeBit_read_other b hadm hfirst
      split
      · exact hone
      · rw [ih _ fun i hi => ?_, hone]
        have := h (i + 1) (Nat.succ_lt_succ hi)
        rwa [Nat.add_comm i 1, BitVec.ofNat_add, ← BitVec.add_assoc, ← writeBit_wcur b hadm] at this
    · rw [hw, if_pos (by simp [State.Running])]
      rfl

/-- What the storing commands keep beside BUF (41_bit_writer.md R70, 43_encoder.md R80). -/
theorem encodeSymbol_keeps (sym : BitVec 24) (s : State) :
    (encodeSymbol sym s).res = s.res ∧ (encodeSymbol sym s).rcur = s.rcur ∧ (encodeSymbol sym s).dx = s.dx := by
  rcases encodeSymbol_cases sym s with ⟨-, h⟩ | ⟨-, h⟩ <;> rw [h]
  · obtain ⟨-, -, hrcur, hres, hdx, -⟩ := writeBits_keeps (codeBits (s.rom.entry (sym.setWidth 8))) s
    exact ⟨hres, hrcur, hdx⟩
  · exact ⟨rfl, rfl, rfl⟩

/-- `ENC` leaves every byte at none of the cursors of its code's bits; out of range it stores nothing
(43_encoder.md R80). -/
theorem encodeSymbol_read_other {sym : BitVec 24} {s : State} {a : Nat}
    (h : isSymbol sym = true → ∀ i, i < s.codeLen (sym.setWidth 8) → a ≠ byteIndex (s.wcur + BitVec.ofNat 32 i)) :
    (encodeSymbol sym s).buf.read a = s.buf.read a := by
  rcases encodeSymbol_cases sym s with ⟨hsym, he⟩ | ⟨-, he⟩ <;> rw [he]
  · refine writeBits_read_other _ s fun i hi => h hsym i ?_
    rwa [codeBits_length] at hi
  · rfl

/-- The loading commands store nothing and leave the write cursor (42_bit_reader.md R75, 44_decoder.md R87,
40_code_table.md R62, R63). -/
theorem effect_keeps_of_loading {i : Instr} (s : State)
    (hi : i = .rdbit ∨ i = .dec ∨ (∃ n, i = .lksym n) ∨ ∃ p l, i = .lkpat p l) :
    (effect i s).buf = s.buf ∧ (effect i s).wcur = s.wcur := by
  rcases hi with rfl | rfl | ⟨n, rfl⟩ | ⟨p, l, rfl⟩
  · rcases effect_rdbit_cases s with ⟨-, h⟩ | ⟨-, h⟩ <;> rw [h] <;> exact ⟨rfl, rfl⟩
  · obtain ⟨-, -, hbuf, hwcur, -⟩ := decodeLoop_keeps Config.depthBits emptyAcc s
    exact ⟨hbuf, hwcur⟩
  · exact ⟨rfl, rfl⟩
  · exact ⟨rfl, rfl⟩

/-- `RDBIT`, `LKSYM` and `LKPAT` leave `DX` (10_state.md R20). -/
theorem effect_dx_of_loading {i : Instr} (s : State)
    (hi : i = .rdbit ∨ i = .dec ∨ (∃ n, i = .lksym n) ∨ ∃ p l, i = .lkpat p l) (hdec : i ≠ .dec) :
    (effect i s).dx = s.dx := by
  rcases hi with rfl | rfl | ⟨n, rfl⟩ | ⟨p, l, rfl⟩
  · rcases effect_rdbit_cases s with ⟨-, h⟩ | ⟨-, h⟩ <;> rw [h] <;> rfl
  · exact absurd rfl hdec
  · rfl
  · rfl

/-- The lookup commands leave `RCUR` and record no fault (40_code_table.md R62, R63). -/
theorem effect_keeps_of_lookup {i : Instr} (s : State)
    (hi : i = .rdbit ∨ i = .dec ∨ (∃ n, i = .lksym n) ∨ ∃ p l, i = .lkpat p l) (hdec : i ≠ .dec)
    (hrdbit : i ≠ .rdbit) : (effect i s).rcur = s.rcur ∧ (effect i s).fault = s.fault := by
  rcases hi with rfl | rfl | ⟨n, rfl⟩ | ⟨p, l, rfl⟩
  · exact absurd rfl hrdbit
  · exact absurd rfl hdec
  · exact ⟨rfl, rfl⟩
  · exact ⟨rfl, rfl⟩

/-- What `WRBIT` leaves alone (41_bit_writer.md R70). -/
theorem effect_wrbit_keeps (b : Bit) (s : State) :
    (∀ a, a ≠ byteIndex s.wcur → (effect (.wrbit b) s).buf.read a = s.buf.read a)
      ∧ (effect (.wrbit b) s).res = s.res ∧ (effect (.wrbit b) s).rcur = s.rcur
      ∧ (effect (.wrbit b) s).dx = s.dx := by
  obtain ⟨-, -, hrcur, hres, hdx, -⟩ := writeBits_keeps [b] s
  rw [effect_wrbit]
  refine ⟨fun a ha => writeBits_read_other [b] s fun i hi => ?_, hres, hrcur, hdx⟩
  obtain rfl : i = 0 := Nat.lt_one_iff.1 hi
  simpa using ha

end Sys2Proof.Machine

namespace Sys2Proof

open Machine

/-- Settles O27: the two runs, each of two steps. -/
theorem writtenBytesAreSeenAtOnce : Obligations.WrittenBytesAreSeenAtOnce :=
  fun _ _ hr => ⟨fun _ hin hp => run_bwr_rdbit hr hin hp, fun _ hin hp => run_wrbit_brd hr hin hp⟩

/-- Settles O38: inside BUF the bits that fit are a run up to its end; outside, nothing is written. -/
theorem encStopsAtTheEndOfBuf : Obligations.EncStopsAtTheEndOfBuf := by
  intro s sym hinv hr hover
  refine ⟨fun hin => ?_, fun hout => ?_⟩
  · obtain ⟨n, hend⟩ : ∃ n, s.wcur.toNat + n = 8 * s.bufBytes := Nat.le.dest hin.le
    have hlen : ((codeBits (s.rom.entry sym)).take n).length = n :=
      List.length_take_of_le (by rw [codeBits_length]; omega)
    have henc := encoded_overflow sym hinv.sizeMax hr hend (by omega)
    obtain ⟨hw, -, hbits, hbytes⟩ :=
      writeBits_run ((codeBits (s.rom.entry sym)).take n) hr hinv.sizeMax (by omega)
    have hframe := writeBits_frame ((codeBits (s.rom.entry sym)).take n) s
    refine ⟨_, (exec_encOf sym hr).trans (congrArg _ henc), rfl, ?_, fun i hi => ?_, fun a ha hd => ?_,
      fun a ha => ?_, hframe⟩
    · rw [State.raise_wcur, hw]
      omega
    · have hi' : i < ((codeBits (s.rom.entry sym)).take n).length := by omega
      have hbit := hbits (s.wcur.toNat + i)
      obtain ⟨hclean, hdirty⟩ := bitAfterRun_clean_or_dirty s s.wcur.toNat _ hi'
      rw [← hbit, codeBits_take_getElem] at hclean hdirty
      refine ⟨hclean, hdirty, fun hf => ?_⟩
      rw [← codeBits_take_getElem s sym n i hi', ← bitAfterRun_of_fresh hf hi', ← hbit]
      rfl
    · exact (hbits a).trans (bitAfterRun_below s _ ha hd)
    · exact hbytes a (by omega)
  · rw [exec_encOf sym hr, encoded_outside sym hinv hout]
    rfl

/-- Settles O52: a halted engine changes nothing; running, by what the loading commands keep. -/
theorem loadingCommandsFrame : Obligations.LoadingCommandsFrame := by
  intro i s t hi h
  obtain ⟨hrom, hsize, hpend, hresp⟩ := exec_keeps h
  obtain rfl | ⟨-, rfl⟩ := exec_next_cases h
  · exact ⟨fun _ => rfl, rfl, rfl, rfl, rfl, rfl, fun _ => rfl, fun _ _ => ⟨rfl, rfl⟩⟩
  · obtain ⟨hbuf, hwcur⟩ := effect_keeps_of_loading s hi
    exact ⟨fun a => by rw [hbuf], hwcur, hrom, hsize, hpend, hresp, effect_dx_of_loading s hi,
      effect_keeps_of_lookup s hi⟩

/-- Settles O53: the bytes by the cursors of the bits written, the rest by what a run of bit writes keeps. -/
theorem storingCommandsFrame : Obligations.StoringCommandsFrame := by
  intro s t
  refine ⟨fun b h => ?_, fun sym h => ?_⟩
  · obtain ⟨hrom, hsize, hpend, hresp⟩ := exec_keeps h
    obtain rfl | ⟨-, rfl⟩ := exec_next_cases h
    · exact ⟨fun _ _ => rfl, rfl, rfl, rfl, rfl, rfl, rfl, rfl⟩
    · obtain ⟨hread, hres, hrcur, hdx⟩ := effect_wrbit_keeps b s
      exact ⟨hread, hres, hrcur, hdx, hrom, hsize, hpend, hresp⟩
  · obtain ⟨hrom, hsize, hpend, hresp⟩ := exec_keeps h
    obtain rfl | ⟨-, rfl⟩ := exec_next_cases h
    · exact ⟨fun _ _ => rfl, rfl, rfl, rfl, rfl, rfl, rfl, rfl⟩
    · obtain ⟨hres, hrcur, hdx⟩ := encodeSymbol_keeps sym s
      exact ⟨fun a ha => encodeSymbol_read_other ha, hres, hrcur, hdx, hrom, hsize, hpend, hresp⟩

end Sys2Proof
end

section
/-! How `DEC` ends (44_decoder.md R87 to R89, 60_exceptions.md R103): at the code that lies at the cursor, after twelve
bits, or at the end of BUF; and that the state machine of R86 ends in the same way. -/

namespace Sys2Proof.Machine

/-- A length in an admissible table is from 2 to 11 (10_state.md R12 W2). -/
theorem codeLen_bounds {s : State} (ht : s.rom.Admissible) (sym : Sym) : 2 ≤ s.codeLen sym ∧ s.codeLen sym ≤ 11 :=
  ht.lengths sym

/-- `DEC` has read `m` bits and found nothing when no code of at most `m` bits lies at the cursor (44_decoder.md
R87). -/
theorem dec_after_bits {s : State} (hinv : s.Inv) {m k : Nat} (hmk : m + k = 12)
    (hroom : s.rcur.toNat + m ≤ 8 * s.bufBytes)
    (hno : ∀ sym, s.codeLen sym ≤ m → ¬ s.CodeAt s.rcur.toNat sym) :
    decodeLoop 12 emptyAcc s
      = decodeLoop k (accAfter s s.rcur.toNat m) (s.setRcur (s.rcur + BitVec.ofNat 32 m)) := by
  have hstart : s.setRcur (BitVec.ofNat 32 (s.rcur.toNat + 0)) = s := by
    rw [Nat.add_zero, BitVec.ofNat_toNat, BitVec.setWidth_eq, State.setRcur_self]
  have hend : BitVec.ofNat 32 (s.rcur.toNat + 0 + m) = s.rcur + BitVec.ofNat 32 m := by
    rw [Nat.add_zero, BitVec.ofNat_add, BitVec.ofNat_toNat, BitVec.setWidth_eq]
  have hrounds := decodeLoop_rounds (c := s.rcur.toNat) hinv.table hinv.sizeMax k m 0 (by omega) (by omega)
    (fun sym _ hle => hno sym (by omega))
  rwa [hstart, hend, hmk, Nat.zero_add] at hrounds

/-- A round of `DEC`'s loop on an admitted cursor (44_decoder.md R87). -/
theorem decodeLoop_succ_of_admits {s : State} (n : Nat) (acc : Acc) (h : s.admits s.rcur = true) :
    decodeLoop (n + 1) acc s = match accLookup s.rom (appendBit acc (s.bit s.rcur.toNat)) with
      | some sym => resolve sym (s.setRcur (s.rcur + 1#32))
      | none => decodeLoop n (appendBit acc (s.bit s.rcur.toNat)) (s.setRcur (s.rcur + 1#32)) := by
  rw [decodeLoop, readBit_of_admits h]
  rfl

/-- A round that finds a symbol ends the loop (44_decoder.md R87). -/
theorem decodeLoop_succ_of_found {s : State} (n : Nat) {acc : Acc} {sym : Sym} (h : s.admits s.rcur = true)
    (hl : accLookup s.rom (appendBit acc (s.bit s.rcur.toNat)) = some sym) :
    decodeLoop (n + 1) acc s = resolve sym (s.setRcur (s.rcur + 1#32)) := by
  rw [decodeLoop_succ_of_admits n acc h, hl]

/-- A round that finds nothing goes on with the bit appended (44_decoder.md R87). -/
theorem decodeLoop_succ_of_not_found {s : State} (n : Nat) {acc : Acc} (h : s.admits s.rcur = true)
    (hl : accLookup s.rom (appendBit acc (s.bit s.rcur.toNat)) = none) :
    decodeLoop (n + 1) acc s
      = decodeLoop n (appendBit acc (s.bit s.rcur.toNat)) (s.setRcur (s.rcur + 1#32)) := by
  rw [decodeLoop_succ_of_admits n acc h, hl]

/-- A round of `DEC`'s loop on a cursor that is not admitted (44_decoder.md R87). -/
theorem decodeLoop_succ_of_not_admits {s : State} (n : Nat) (acc : Acc) (h : s.admits s.rcur = false) :
    decodeLoop (n + 1) acc s = s.raise .rdBounds := by
  rw [decodeLoop, readBit_of_not_admits h]

/-- No shorter code lies where a code lies (44_decoder.md R89). -/
theorem not_codeAt_of_shorter {s : State} (ht : s.rom.Admissible) {c : Nat} {sym : Sym} (h : s.CodeAt c sym)
    {other : Sym} (hlt : s.codeLen other < s.codeLen sym) : ¬ s.CodeAt c other := by
  intro hother
  rw [codeAt_unique ht hother h] at hlt
  exact Nat.lt_irrefl _ hlt

/-- Resolved: `DEC` on the code of a symbol (44_decoder.md R87, R89). -/
theorem exec_dec_of_codeAt {s : State} {sym : Sym} (hinv : s.Inv) (hr : s.Running)
    (hcode : s.CodeAt s.rcur.toNat sym) (hroom : s.rcur.toNat + s.codeLen sym ≤ 8 * s.bufBytes) :
    exec .dec s = .next (resolve sym (s.setRcur (s.rcur + BitVec.ofNat 32 (s.codeLen sym)))) := by
  obtain ⟨hmin, hmax⟩ := codeLen_bounds hinv.table sym
  obtain ⟨m, hm⟩ : ∃ m, s.codeLen sym = m + 1 := ⟨s.codeLen sym - 1, by omega⟩
  have hsize := hinv.sizeMax
  have hbefore := dec_after_bits hinv (m := m) (k := 11 - m + 1) (by omega) (by omega)
    (fun other hle => not_codeAt_of_shorter hinv.table hcode (by omega))
  generalize hu : s.setRcur (s.rcur + BitVec.ofNat 32 m) = u at hbefore
  have hcur : u.rcur.toNat = s.rcur.toNat + m := by
    rw [← hu]
    exact toNat_add_ofNat (by omega)
  have hadm : u.admits u.rcur = true := by
    rw [State.admits_iff, hcur, ← hu, State.setRcur_bufBytes]
    omega
  have hlook : accLookup u.rom (appendBit (accAfter s s.rcur.toNat m) (u.bit u.rcur.toNat)) = some sym := by
    rw [hcur, ← hu]
    exact (accLookup_eq_some (n := m + 1) (by omega) hinv.table sym).2 ⟨hm, hcode⟩
  have hstep : s.rcur + BitVec.ofNat 32 m + 1#32 = s.rcur + BitVec.ofNat 32 (m + 1) := by
    rw [BitVec.add_assoc, ← BitVec.ofNat_add]
  rw [exec_dec_of_running hr, hbefore, decodeLoop_succ_of_found _ hadm hlook, hm, ← hu, ← hstep]
  rfl

/-- Depth-Exceeded: `DEC` with twelve bits left where no code lies (44_decoder.md R87, R88). -/
theorem exec_dec_of_no_code {s : State} (hinv : s.Inv) (hr : s.Running)
    (hroom : s.rcur.toNat + 12 ≤ 8 * s.bufBytes) (hno : ∀ sym, ¬ s.CodeAt s.rcur.toNat sym) :
    exec .dec s = .next (exceedDepth (s.setRcur (s.rcur + 12#32))) := by
  rw [exec_dec_of_running hr, dec_after_bits hinv (m := 12) (k := 0) rfl hroom (fun sym _ => hno sym)]
  rfl

/-- `DEC` that meets the end of BUF after `m` bits (44_decoder.md R87, 60_exceptions.md R103). -/
theorem exec_dec_of_end {s : State} (hinv : s.Inv) (hr : s.Running) {m : Nat} (hm : m < 12)
    (hend : s.rcur.toNat + m = 8 * s.bufBytes) (hno : ∀ sym, s.codeLen sym ≤ m → ¬ s.CodeAt s.rcur.toNat sym) :
    exec .dec s = .next ((s.setRcur (s.rcur + BitVec.ofNat 32 m)).raise .rdBounds) := by
  have hsize := hinv.sizeMax
  have hcur : (s.rcur + BitVec.ofNat 32 m).toNat = s.rcur.toNat + m := toNat_add_ofNat (by omega)
  have hadm : (s.setRcur (s.rcur + BitVec.ofNat 32 m)).admits (s.rcur + BitVec.ofNat 32 m) = false := by
    rw [← Bool.not_eq_true, State.admits_iff, hcur, State.setRcur_bufBytes]
    omega
  rw [exec_dec_of_running hr, dec_after_bits hinv (m := m) (k := 11 - m + 1) (by omega) hend.le hno,
    decodeLoop_succ_of_not_admits _ _ hadm]

/-- `DEC` begun outside BUF (44_decoder.md R87). -/
theorem exec_dec_of_outside {s : State} (hr : s.Running) (hout : 8 * s.bufBytes ≤ s.rcur.toNat) :
    exec .dec s = .next (s.raise .rdBounds) := by
  have hadm : s.admits s.rcur = false := by
    rw [← Bool.not_eq_true, State.admits_iff]
    omega
  rw [exec_dec_of_running hr, decodeLoop_succ_of_not_admits _ _ hadm]

/-- All the ways `DEC` can end on a running engine (44_decoder.md R87 to R89). -/
theorem exec_dec_cases {s : State} (hinv : s.Inv) (hr : s.Running) :
    (∃ sym, s.CodeAt s.rcur.toNat sym ∧ s.rcur.toNat + s.codeLen sym ≤ 8 * s.bufBytes
      ∧ exec .dec s = .next (resolve sym (s.setRcur (s.rcur + BitVec.ofNat 32 (s.codeLen sym)))))
    ∨ (s.rcur.toNat + 12 ≤ 8 * s.bufBytes ∧ exec .dec s = .next (exceedDepth (s.setRcur (s.rcur + 12#32))))
    ∨ ∃ t, exec .dec s = .next t ∧ t.fault = .rdBounds := by
  by_cases hcode : ∃ sym, s.CodeAt s.rcur.toNat sym ∧ s.rcur.toNat + s.codeLen sym ≤ 8 * s.bufBytes
  · obtain ⟨sym, hat, hfit⟩ := hcode
    exact .inl ⟨sym, hat, hfit, exec_dec_of_codeAt hinv hr hat hfit⟩
  · rw [not_exists] at hcode
    have hno : ∀ sym, s.rcur.toNat + s.codeLen sym ≤ 8 * s.bufBytes → ¬ s.CodeAt s.rcur.toNat sym :=
      fun sym hfit hat => hcode sym ⟨hat, hfit⟩
    by_cases hroom : s.rcur.toNat + 12 ≤ 8 * s.bufBytes
    · refine .inr (.inl ⟨hroom, exec_dec_of_no_code hinv hr hroom fun sym => hno sym ?_⟩)
      have := (codeLen_bounds hinv.table sym).2
      omega
    · rcases Nat.lt_or_ge s.rcur.toNat (8 * s.bufBytes) with hin | hout
      · obtain ⟨m, hend⟩ : ∃ m, s.rcur.toNat + m = 8 * s.bufBytes := Nat.le.dest hin.le
        exact .inr (.inr ⟨_, exec_dec_of_end hinv hr (by omega) hend fun sym hle => hno sym (by omega), rfl⟩)
      · exact .inr (.inr ⟨_, exec_dec_of_outside hr hout, rfl⟩)

/-! ### The state machine -/

/-- A state machine that has ended, by a code, by the depth or by a fault (44_decoder.md R86). -/
def DecPhase.Ended (p : DecPhase) : Prop := p ≠ .start ∧ p ≠ .reading

theorem DecPhase.ended_resolved (sym : Sym) : (DecPhase.resolved sym).Ended := ⟨nofun, nofun⟩

theorem DecPhase.ended_depthExceeded : DecPhase.depthExceeded.Ended := ⟨nofun, nofun⟩

theorem DecPhase.ended_faulted : DecPhase.faulted.Ended := ⟨nofun, nofun⟩

theorem decMachineRun_succ (n : Nat) (d : DecMachine) :
    decMachineRun (n + 1) d = decMachineRun n (decMachineStep d) := rfl

/-- A state machine that has ended stays as it is (44_decoder.md R86). -/
theorem decMachineRun_of_ended (n : Nat) {p : DecPhase} (h : p.Ended) (acc : Acc) (s : State) :
    decMachineRun n ⟨p, acc, s⟩ = ⟨p, acc, s⟩ := by
  have hstep : decMachineStep ⟨p, acc, s⟩ = ⟨p, acc, s⟩ := by
    obtain ⟨hstart, hreading⟩ := h
    cases p with
    | start => exact absurd rfl hstart
    | reading => exact absurd rfl hreading
    | resolved | depthExceeded | faulted => rfl
  induction n with
  | zero => rfl
  | succ n ih => rw [decMachineRun_succ, hstep, ih]

/-- The state machine ends where `DEC`'s loop does: `d` has ended and leaves `t`. -/
def DecMachine.EndsAs (d : DecMachine) (t : State) : Prop := d.phase.Ended ∧ decMachineResult d = t

/-- The two things a transition out of Start or Reading can do: make an accumulator step, or leave by a fault
(44_decoder.md R85, R86). -/
theorem decMachineStep_cases {p : DecPhase} (hp : ¬ p.Ended) (acc : Acc) (s : State) :
    (s.admits s.rcur = true ∧ decMachineStep ⟨p, acc, s⟩
      = ⟨decPhaseAfter s.rom (appendBit acc (s.bit s.rcur.toNat)) p, appendBit acc (s.bit s.rcur.toNat),
          s.setRcur (s.rcur + 1#32)⟩)
    ∨ (s.admits s.rcur = false ∧ decMachineStep ⟨p, acc, s⟩ = ⟨.faulted, acc, s.raise .rdBounds⟩) := by
  cases p with
  | start | reading =>
    rcases readBit_cases s with ⟨hadm, h⟩ | ⟨hadm, h⟩
    · exact .inl ⟨hadm, by simp only [decMachineStep, h, State.setRcur_rom]⟩
    · exact .inr ⟨hadm, by simp only [decMachineStep, h]⟩
  | resolved sym => exact absurd (DecPhase.ended_resolved sym) hp
  | depthExceeded => exact absurd DecPhase.ended_depthExceeded hp
  | faulted => exact absurd DecPhase.ended_faulted hp

/-- The accumulator's length counts the bits appended, up to twelve (44_decoder.md R85). -/
theorem appendBit_len {acc : Acc} {n : Nat} (b : Bit) (h : acc.len.toNat + (n + 1) = 12) :
    (appendBit acc b).len.toNat + n = 12 := by
  rw [appendBit, BitVec.toNat_add]
  simp
  omega

/-- With two bits or more in the accumulator `DEC` looks its pattern up (44_decoder.md R87). -/
theorem accLookup_eq_lookupPat (t : Table) {acc : Acc} (h : 2 ≤ acc.len.toNat) :
    accLookup t acc = lookupPat t acc.pat acc.len := by
  rw [accLookup, if_neg (by rw [Config.firstLookupLen]; omega)]

/-- With less than two bits in the accumulator `DEC` looks nothing up (44_decoder.md R87). -/
theorem accLookup_eq_none_of_short (t : Table) {acc : Acc} (h : acc.len.toNat < 2) : accLookup t acc = none :=
  if_pos h

/-- From Reading the state machine ends as `DEC`'s loop does, the loop's count being what the accumulator still lacks
to twelve bits (44_decoder.md R86, R87). -/
theorem decMachineRun_reading (n : Nat) {acc : Acc} (s : State) (hn : 0 < n) (hlen : acc.len.toNat + n = 12)
    (hpos : 1 ≤ acc.len.toNat) :
    (decMachineRun n ⟨.reading, acc, s⟩).EndsAs (decodeLoop n acc s) := by
  have hp : ¬ DecPhase.reading.Ended := fun h => h.2 rfl
  induction n generalizing acc s with
  | zero => omega
  | succ n ih =>
    rw [decMachineRun_succ]
    rcases decMachineStep_cases hp acc s with ⟨hadm, hstep⟩ | ⟨hadm, hstep⟩
    · rw [hstep, decodeLoop_succ_of_admits n acc hadm, decPhaseAfter]
      have hlen' := appendBit_len (s.bit s.rcur.toNat) hlen
      generalize appendBit acc (s.bit s.rcur.toNat) = acc' at hlen' ⊢
      rw [accLookup_eq_lookupPat _ (by omega)]
      cases lookupPat s.rom acc'.pat acc'.len with
      | some sym =>
        rw [decMachineRun_of_ended n (DecPhase.ended_resolved sym)]
        exact ⟨DecPhase.ended_resolved sym, rfl⟩
      | none =>
        rcases Nat.eq_zero_or_pos n with rfl | hn'
        · rw [if_neg (by omega)]
          exact ⟨DecPhase.ended_depthExceeded, rfl⟩
        · rw [if_pos (by omega)]
          exact ih _ hn' hlen' (by omega)
    · rw [hstep, decodeLoop_succ_of_not_admits n acc hadm, decMachineRun_of_ended n DecPhase.ended_faulted]
      exact ⟨DecPhase.ended_faulted, rfl⟩

/-- From Start the state machine ends as `DEC` does: its first bit brings no lookup (44_decoder.md R86, R87). -/
theorem decMachineRun_start (s : State) :
    (decMachineRun 12 ⟨.start, emptyAcc, s⟩).EndsAs (decodeLoop 12 emptyAcc s) := by
  have hp : ¬ DecPhase.start.Ended := fun h => h.1 rfl
  rw [decMachineRun_succ]
  rcases decMachineStep_cases hp emptyAcc s with ⟨hadm, hstep⟩ | ⟨hadm, hstep⟩
  · have hlen : (appendBit emptyAcc (s.bit s.rcur.toNat)).len.toNat + 11 = 12 := rfl
    have hnone := accLookup_eq_none_of_short s.rom (acc := appendBit emptyAcc (s.bit s.rcur.toNat)) (by omega)
    rw [hstep, decodeLoop_succ_of_not_found 11 hadm hnone]
    exact decMachineRun_reading 11 _ (by decide) hlen (by omega)
  · rw [hstep, decodeLoop_succ_of_not_admits 11 emptyAcc hadm, decMachineRun_of_ended 11 DecPhase.ended_faulted]
    exact ⟨DecPhase.ended_faulted, rfl⟩

end Sys2Proof.Machine

namespace Sys2Proof

open Machine

/-- Settles O39: `exec_dec_of_codeAt`, the state written out. -/
theorem decResolvesTheCodeAtTheCursor : Obligations.DecResolvesTheCodeAtTheCursor :=
  fun _ _ hinv hr hcode hroom => exec_dec_of_codeAt hinv hr hcode hroom

/-- Settles O40: without a code `exec_dec_of_no_code`; with one, `DEC` resolves it and leaves `DX` 0. -/
theorem decGivesUpAfterTwelveBits : Obligations.DecGivesUpAfterTwelveBits := by
  intro s hinv hr hroom
  refine ⟨exec_dec_of_no_code hinv hr hroom, fun t h hdx sym hcode => ?_⟩
  have hmax := (codeLen_bounds hinv.table sym).2
  rw [exec_dec_of_codeAt hinv hr hcode (by omega)] at h
  cases h
  exact Bool.false_ne_true hdx

/-- Settles O41: begun inside BUF `DEC` ends after the bits that are left, begun outside at once. -/
theorem decStopsAtTheEndOfBuf : Obligations.DecStopsAtTheEndOfBuf := by
  intro s hinv hr
  refine ⟨fun hin hfew hno => ?_, exec_dec_of_outside hr⟩
  obtain ⟨m, hend⟩ : ∃ m, s.rcur.toNat + m = 8 * s.bufBytes := Nat.le.dest hin.le
  have hcur : s.rcur + BitVec.ofNat 32 m = BitVec.ofNat 32 (8 * s.bufBytes) := by
    rw [← hend, BitVec.ofNat_add, BitVec.ofNat_toNat, BitVec.setWidth_eq]
  rw [exec_dec_of_end hinv hr (by omega) hend fun sym hle => hno sym (by omega), hcur]
  rfl

/-- Settles O42: a code has from 2 to 11 bits, Depth-Exceeded takes 12, and the end of BUF leaves a fault. -/
theorem decAdvanceTellsTheOutcome : Obligations.DecAdvanceTellsTheOutcome := by
  intro s t hinv hr h ht
  have hsize := hinv.sizeMax
  obtain ⟨sym, -, hfit, he⟩ | ⟨hroom, he⟩ | ⟨u, he, hfault⟩ := exec_dec_cases hinv hr
  · obtain ⟨hmin, hmax⟩ := codeLen_bounds hinv.table sym
    cases he.symm.trans h
    have hcur := toNat_add_ofNat (c := s.rcur) (n := s.codeLen sym) (by omega)
    simp only [resolve, State.setDx_rcur, State.setRes_rcur, State.setRcur_rcur, State.setDx_dx, hcur]
    simp
    omega
  · cases he.symm.trans h
    have hcur := toNat_add_ofNat (c := s.rcur) (n := 12) (by omega)
    simp only [exceedDepth, State.setDx_rcur, State.setRes_rcur, State.setRcur_rcur, State.setDx_dx, hcur]
    simp [Config.sentinel]
  · cases he.symm.trans h
    rw [State.Running, hfault] at ht
    cases ht

/-- Settles O43: the state machine ends as `DEC`'s loop does, bit by bit. -/
theorem decoderStateMachineIsDec : Obligations.DecoderStateMachineIsDec := by
  intro s hr
  obtain ⟨⟨hstart, hreading⟩, hresult⟩ := decMachineRun_start s
  exact ⟨hstart, hreading, (exec_dec_of_running hr).trans (congrArg _ hresult.symm)⟩

end Sys2Proof
end

section
/-! Round trips (44_decoder.md R90, R91): a code written on fresh ground is the code `DEC` finds there, for one symbol
through the host's queue and for a sequence of symbols. -/

namespace Sys2Proof.Machine

/-- The line `ENC` of a symbol is a write to `CMD` of a word that decodes to `ENC` of it (30_encoding.md R52). -/
theorem asmEncSymbol_transaction (sym : Sym) :
    ∃ w, (AsmLine.enc sym.toNat).transaction = .hwr .cmd w ∧ decode w = .ok (encOf sym) := by
  obtain ⟨w, hw, hd⟩ := asmEnc_transaction sym.toNat
  refine ⟨w, hw, ?_⟩
  rw [hd, BitVec.ofInt_natCast, BitVec.ofNat_toNat, encOf]

theorem step_of_setw {s : State} {v : Word} {rest : List HostTx} (hr : s.Running)
    (hp : s.pending = (AsmLine.setw v).transaction :: rest) : step s = .next ((s.afterTake rest).setWcur v) :=
  (step_of_pending hp).trans (transact_hwr_wcur_of_running v hr)

theorem step_of_setr {s : State} {v : Word} {rest : List HostTx} (hr : s.Running)
    (hp : s.pending = (AsmLine.setr v).transaction :: rest) : step s = .next ((s.afterTake rest).setRcur v) :=
  (step_of_pending hp).trans (transact_hwr_rcur_of_running v hr)

theorem encoded_rom (s : State) (sym : Sym) : (s.encoded sym).rom = s.rom := (writeBits_keeps _ s).1

theorem encoded_bufBytes (s : State) (sym : Sym) : (s.encoded sym).bufBytes = s.bufBytes := (writeBits_keeps _ s).2.1

theorem State.Inv.encoded {s : State} (h : s.Inv) (sym : Sym) : (s.encoded sym).Inv := h.writeBits _

/-- A bit of BUF depends on BUF alone. -/
theorem bit_eq_of_buf {s t : State} (h : t.buf = s.buf) (a : Nat) : t.bit a = s.bit a :=
  State.bit_congr (State.bufByte_congr h _)

/-- The lengths of the codes are the ROM's. -/
theorem codeLen_congr {s t : State} (h : t.rom = s.rom) (sym : Sym) : t.codeLen sym = s.codeLen sym := by
  rw [State.codeLen, h, State.codeLen]

/-- `DEC` from where `ENC` began on fresh ground finds the symbol, whatever was done in between to anything but BUF and
the ROM (44_decoder.md R90). -/
theorem exec_dec_of_encoded {s u : State} {sym : Sym} (hinv : s.Inv) (hr : s.Running) (hf : s.FreshAt s.wcur.toNat)
    (hroom : s.wcur.toNat + s.codeLen sym ≤ 8 * s.bufBytes) (hrom : u.rom = s.rom) (hsize : u.bufBytes = s.bufBytes)
    (hbuf : u.buf = (s.encoded sym).buf) (hru : u.Running) (hrcur : u.rcur = s.wcur) :
    exec .dec u = .next (resolve sym (u.setRcur (s.wcur + BitVec.ofNat 32 (s.codeLen sym)))) := by
  have hrom' : u.rom = (s.encoded sym).rom := hrom.trans (encoded_rom s sym).symm
  have hsize' : u.bufBytes = (s.encoded sym).bufBytes := hsize.trans (encoded_bufBytes s sym).symm
  have hinv' : u.Inv := (hinv.encoded sym).congr hrom' hsize' hbuf
  have hcode : u.CodeAt s.wcur.toNat sym :=
    (codeAt_congr hrom' fun i _ => bit_eq_of_buf hbuf _).2 (encoded_codeAt sym hinv hr hf hroom)
  have hlen := codeLen_congr hrom sym
  rw [← hrcur] at hcode hroom ⊢
  rw [← hlen] at hroom ⊢
  exact exec_dec_of_codeAt hinv' hru hcode (hsize ▸ hroom)

/-- `ENC` on fresh ground, `SETR` back to where it began and `DEC`, through the host's queue (44_decoder.md R90). -/
theorem run_enc_setr_dec {s : State} {sym : Sym} {rest : List HostTx} (hinv : s.Inv) (hr : s.Running)
    (hf : s.FreshAt s.wcur.toNat) (hroom : s.wcur.toNat + s.codeLen sym ≤ 8 * s.bufBytes)
    (hp : s.pending = (AsmLine.enc sym.toNat).transaction :: (AsmLine.setr s.wcur).transaction
      :: AsmLine.dec.transaction :: rest) :
    ∃ t, Sys2Proof.core.run 3 s = .next t
      ∧ t.res = sym.setWidth 32 ∧ t.dx = false ∧ t.Running
      ∧ t.wcur.toNat = s.wcur.toNat + s.codeLen sym ∧ t.rcur.toNat = s.wcur.toNat + s.codeLen sym
      ∧ t.pending = rest := by
  obtain ⟨w, hw, hd⟩ := asmEncSymbol_transaction sym
  rw [hw] at hp
  generalize hs0 : s.afterTake ((AsmLine.setr s.wcur).transaction :: AsmLine.dec.transaction :: rest) = s0
  have hinv0 : s0.Inv := hs0 ▸ hinv.congr rfl rfl rfl
  have hr0 : s0.Running := hs0 ▸ hr
  have hw0 : s0.wcur = s.wcur := hs0 ▸ rfl
  have hlen0 : s0.codeLen sym = s.codeLen sym := hs0 ▸ rfl
  have hf0 : s0.FreshAt s0.wcur.toNat := hs0 ▸ hf
  have hroom0 : s0.wcur.toNat + s0.codeLen sym ≤ 8 * s0.bufBytes := hs0 ▸ hroom
  have hstep1 : step s = .next (s0.encoded sym) := by
    rw [step_of_command hp hd, hs0, exec_encOf sym hr0]
  have hdec := fun u => exec_dec_of_encoded (u := u) hinv0 hr0 hf0 hroom0
  obtain ⟨hwcur, hrun, -⟩ := encoded_run sym hinv0 hr0 hroom0
  have hrom := encoded_rom s0 sym
  have hsize := encoded_bufBytes s0 sym
  have hpend : (s0.encoded sym).pending = (AsmLine.setr s.wcur).transaction :: AsmLine.dec.transaction :: rest := by
    obtain ⟨-, -, -, -, -, hpend, -⟩ := writeBits_keeps (codeBits (s0.rom.entry sym)) s0
    exact hpend.trans (hs0 ▸ rfl)
  generalize s0.encoded sym = e at hstep1 hdec hwcur hrun hrom hsize hpend
  have hstep2 := step_of_setr hrun hpend
  generalize hu : (e.afterTake (AsmLine.dec.transaction :: rest)).setRcur s.wcur = u at hstep2
  have hpu : u.pending = AsmLine.dec.transaction :: rest := hu ▸ rfl
  have hru : (u.afterTake rest).Running := hu ▸ hrun
  have hwu : u.wcur = e.wcur := hu ▸ rfl
  have hstep3 := (step_of_command hpu (decode_encode .dec)).trans
    (hdec (u.afterTake rest) (hu ▸ hrom) (hu ▸ hsize) (hu ▸ rfl) hru (hw0 ▸ hu ▸ rfl))
  have hmax := hinv.sizeMax
  rw [hw0, hlen0] at hwcur hstep3
  refine ⟨_, (run_succ_of_next 2 hstep1).trans ((run_succ_of_next 1 hstep2).trans (run_succ_of_next 0 hstep3)),
    rfl, rfl, hru, ?_, ?_, rfl⟩
  · rw [← hwcur, ← hwu]
    rfl
  · exact toNat_add_ofNat (by omega)

/-! ### Sequences of symbols -/

/-- The codes of a sequence of symbols, back to back (44_decoder.md R91). -/
def streamBits (t : Table) (syms : List Sym) : List Bit := syms.flatMap fun sym => codeBits (t.entry sym)

theorem streamBits_length (s : State) (syms : List Sym) : (streamBits s.rom syms).length = s.streamLen syms := by
  rw [streamBits, List.length_flatMap, State.streamLen]
  simp only [codeBits_length]

theorem streamLen_congr {s t : State} (h : t.rom = s.rom) (syms : List Sym) : t.streamLen syms = s.streamLen syms := by
  rw [State.streamLen, funext (codeLen_congr h), State.streamLen]

@[simp] theorem streamLen_nil (s : State) : s.streamLen [] = 0 := rfl

theorem streamLen_cons (s : State) (sym : Sym) (syms : List Sym) :
    s.streamLen (sym :: syms) = s.codeLen sym + s.streamLen syms := List.sum_cons

/-- `ENC` of each symbol of a sequence is one run of their codes' bits (43_encoder.md R80). -/
theorem runCommands_encOf (syms : List Sym) {s : State} (hinv : s.Inv) (hr : s.Running)
    (hroom : s.wcur.toNat + s.streamLen syms ≤ 8 * s.bufBytes) :
    runCommands (syms.map encOf) s = .next (writeBits (streamBits s.rom syms) s) := by
  induction syms generalizing s with
  | nil => rfl
  | cons sym syms ih =>
    rw [streamLen_cons] at hroom
    obtain ⟨hw, hrun, -⟩ := encoded_run sym hinv hr (by omega)
    have hlen := streamLen_congr (encoded_rom s sym) syms
    have hsize := encoded_bufBytes s sym
    have hfit : s.wcur.toNat + (codeBits (s.rom.entry sym)).length ≤ 8 * s.bufBytes := by
      rw [codeBits_length]
      omega
    have hrest := ih (hinv.encoded sym) hrun (by omega)
    have hsplit := writeBits_append (codeBits (s.rom.entry sym)) (streamBits s.rom syms) hr hinv.sizeMax hfit
    rw [encoded_rom] at hrest
    rw [List.map_cons, runCommands_cons_of_next _ (exec_encOf sym hr), hrest]
    exact congrArg _ hsplit.symm

/-- The codes of a sequence of symbols lie back to back from a bit address (44_decoder.md R91). -/
def State.StreamAt (s : State) : Nat → List Sym → Prop
  | _, [] => True
  | a, sym :: syms => s.CodeAt a sym ∧ s.StreamAt (a + s.codeLen sym) syms

theorem streamAt_congr {s t : State} (hrom : t.rom = s.rom) (hbuf : t.buf = s.buf) {syms : List Sym} {a : Nat}
    (h : s.StreamAt a syms) : t.StreamAt a syms := by
  induction syms generalizing a with
  | nil => trivial
  | cons sym syms ih =>
    obtain ⟨hcode, hrest⟩ := h
    refine ⟨(codeAt_congr hrom fun i _ => bit_eq_of_buf hbuf _).2 hcode, ?_⟩
    rw [codeLen_congr hrom]
    exact ih hrest

/-- Where the bits of a sequence's codes lie, the codes lie. -/
theorem streamAt_of_bits {t : State} {syms : List Sym} {a : Nat}
    (h : ∀ m (hm : m < (streamBits t.rom syms).length), t.bit (a + m) = (streamBits t.rom syms)[m]) :
    t.StreamAt a syms := by
  induction syms generalizing a with
  | nil => trivial
  | cons sym syms ih =>
    have hsplit : streamBits t.rom (sym :: syms) = codeBits (t.rom.entry sym) ++ streamBits t.rom syms :=
      List.flatMap_cons
    have hlen := codeBits_length t sym
    simp only [hsplit, List.length_append] at h
    refine ⟨fun i hi => ?_, ih fun m hm => ?_⟩
    · rw [h i (by omega), List.getElem_append_left (by omega), codeBits_getElem]
    · have := h (t.codeLen sym + m) (by omega)
      rw [List.getElem_append_right (by omega)] at this
      simpa only [hlen, Nat.add_sub_cancel_left, Nat.add_assoc] using this

/-- `DEC`, `k` times, on a sequence of codes: the cursor behind the first `k`, the `k`-th symbol in `RES`
(44_decoder.md R91). -/
theorem runCommands_dec (syms : List Sym) {s : State} (hinv : s.Inv) (hr : s.Running)
    (hstream : s.StreamAt s.rcur.toNat syms) (hroom : s.rcur.toNat + s.streamLen syms ≤ 8 * s.bufBytes)
    {k : Nat} (hk : k ≤ syms.length) :
    ∃ u, runCommands (List.replicate k .dec) s = .next u
      ∧ u.Running ∧ u.rcur.toNat = s.rcur.toNat + s.streamLen (syms.take k)
      ∧ ∀ j (hj : j < syms.length), k = j + 1 → u.res = (syms[j]).setWidth 32 ∧ u.dx = false := by
  induction syms generalizing s k with
  | nil =>
    obtain rfl : k = 0 := Nat.le_zero.1 hk
    exact ⟨s, rfl, hr, rfl, nofun⟩
  | cons sym syms ih =>
    cases k with
    | zero => exact ⟨s, rfl, hr, rfl, nofun⟩
    | succ k =>
      obtain ⟨hcode, hrest⟩ := hstream
      rw [streamLen_cons] at hroom
      have hfirst := exec_dec_of_codeAt hinv hr hcode (by omega)
      generalize hs1 : resolve sym (s.setRcur (s.rcur + BitVec.ofNat 32 (s.codeLen sym))) = s1 at hfirst
      have hsize := hinv.sizeMax
      have hcur : s1.rcur.toNat = s.rcur.toNat + s.codeLen sym := by
        rw [← hs1]
        exact toNat_add_ofNat (by omega)
      have hrom : s1.rom = s.rom := hs1 ▸ rfl
      have hbuf : s1.buf = s.buf := hs1 ▸ rfl
      have hbytes : s1.bufBytes = s.bufBytes := hs1 ▸ rfl
      have hr1 : s1.Running := hs1 ▸ hr
      have hlen := streamLen_congr hrom
      obtain ⟨u, hu, hru, hcuru, hresu⟩ := ih (s := s1) (hinv.congr hrom hbytes hbuf) hr1
        (hcur ▸ streamAt_congr hrom hbuf hrest) (by rw [hcur, hlen, hbytes]; omega) (Nat.le_of_succ_le_succ hk)
      refine ⟨u, ?_, hru, ?_, fun j hj hkj => ?_⟩
      · rw [List.replicate_succ, runCommands_cons_of_next _ hfirst, hu]
      · rw [hcuru, hcur, hlen, List.take_succ_cons, streamLen_cons, Nat.add_assoc]
      · cases j with
        | zero =>
          obtain rfl : k = 0 := Nat.succ.inj hkj
          cases hu
          rw [← hs1]
          exact ⟨rfl, rfl⟩
        | succ j => exact hresu j (Nat.lt_of_succ_lt_succ hj) (Nat.succ.inj hkj)

end Sys2Proof.Machine

namespace Sys2Proof

open Machine

/-- Settles O44: a write of `WCUR`, then `run_enc_setr_dec`. -/
theorem encThenDecGivesTheSymbolBack : Obligations.EncThenDecGivesTheSymbolBack := by
  intro s sym c rest hinv hr hf hroom hp
  obtain ⟨t, ht, hafter⟩ := run_enc_setr_dec (rest := rest)
    (s := (s.afterTake ((AsmLine.enc sym.toNat).transaction :: (AsmLine.setr c).transaction
      :: AsmLine.dec.transaction :: rest)).setWcur c) (hinv.congr rfl rfl rfl) hr hf hroom rfl
  exact ⟨t, (run_succ_of_next 3 (step_of_setw hr hp)).trans ht, hafter⟩

/-- Settles O45: the sequence's codes are one run of bits on fresh ground, so they lie where `DEC` reads them. -/
theorem symbolStreamsDecodeInOrder : Obligations.SymbolStreamsDecodeInOrder := by
  intro s syms hinv hr hf hroom
  have hlen := streamBits_length s syms
  obtain ⟨hw, hrun, hbits, -⟩ := writeBits_run (streamBits s.rom syms) hr hinv.sizeMax (by omega)
  obtain ⟨hrom, hsize, -⟩ := writeBits_keeps (streamBits s.rom syms) s
  refine ⟨_, runCommands_encOf syms hinv hr hroom, by omega, fun k hk => ?_⟩
  have hinv' : (writeBits (streamBits s.rom syms) s).Inv := hinv.writeBits _
  generalize writeBits (streamBits s.rom syms) s = t at *
  have hstream : t.StreamAt s.wcur.toNat syms := by
    refine streamAt_of_bits fun m hm => ?_
    rw [hbits]
    simp only [hrom] at hm ⊢
    exact bitAfterRun_of_fresh hf hm
  have hstream' : (t.setRcur s.wcur).StreamAt s.wcur.toNat syms :=
    streamAt_congr (s := t) (t := t.setRcur s.wcur) rfl rfl hstream
  have hlen' : ∀ l, (t.setRcur s.wcur).streamLen l = s.streamLen l := streamLen_congr hrom
  obtain ⟨u, hu, hru, hcur, hres⟩ := runCommands_dec syms (s := t.setRcur s.wcur) (hinv'.congr rfl rfl rfl) hrun
    hstream' (by rw [hlen', State.setRcur_rcur, State.setRcur_bufBytes, hsize]; exact hroom) hk
  rw [hlen'] at hcur
  exact ⟨u, hu, hru, hcur, hres⟩

end Sys2Proof
end

section
/-! What the commands do not read (10_state.md R16, R17, R19, R20), and how far they move the cursors (00_scope.md
R8 a): the same command on two states that differ in those fields, and the bounds on the cursors' advance. -/

namespace Sys2Proof.Machine

/-- If a change to the state neither starts nor stops the engine and a command's effect is the same under it, the
command answers under the change what it answers without, changed. -/
theorem exec_comm {g : State → State} {i : Instr} {s t : State} (hrun : (g s).Running ↔ s.Running)
    (heff : effect i (g s) = g (effect i s)) (h : exec i s = .next t) : exec i (g s) = .next (g t) := by
  rw [exec_eq] at h ⊢
  obtain rfl := Host.Outcome.next.inj h
  by_cases hr : s.Running
  · rw [whenRunning_of_running _ _ hr, whenRunning_of_running _ _ (hrun.2 hr), heff]
  · rw [whenRunning_of_halted _ _ hr, whenRunning_of_halted _ _ (mt hrun.1 hr)]

/-- The state with other values in the fields the bit writer does not see: `RCUR`, `RES` and `STATUS.DX`. -/
def State.readSide (r v : Word) (d : Bool) (s : State) : State := { s with rcur := r, res := v, dx := d }

/-- `WriteBit` neither reads nor writes `RCUR`, `RES` and `DX` (41_bit_writer.md R70). -/
theorem writeBit_readSide (b : Bit) (r v : Word) (d : Bool) (s : State) :
    writeBit b (s.readSide r v d) = (writeBit b s).readSide r v d := by
  cases hadm : s.admits s.wcur with
  | true =>
    rw [writeBit_of_admits b hadm, writeBit_of_admits (s := s.readSide r v d) b hadm]
    rfl
  | false =>
    rw [writeBit_of_not_admits b hadm, writeBit_of_not_admits (s := s.readSide r v d) b hadm]
    rfl

theorem writeBits_readSide (bs : List Bit) (r v : Word) (d : Bool) (s : State) :
    writeBits bs (s.readSide r v d) = (writeBits bs s).readSide r v d := by
  induction bs generalizing s with
  | nil => rfl
  | cons b bs ih =>
    rw [writeBits_cons, writeBits_cons, writeBit_readSide, ih]
    exact (apply_ite (State.readSide r v d) _ _ _).symm

/-- The storing commands neither read nor write `RCUR`, `RES` and `DX` (41_bit_writer.md R71, 43_encoder.md R80). -/
theorem effect_readSide {i : Instr} (hi : (∃ b, i = .wrbit b) ∨ ∃ n, i = .enc n) (r v : Word) (d : Bool) (s : State) :
    effect i (s.readSide r v d) = (effect i s).readSide r v d := by
  rcases hi with ⟨b, rfl⟩ | ⟨sym, rfl⟩
  · exact writeBit_readSide b r v d s
  · rw [effect_enc, effect_enc, encodeSymbol, encodeSymbol]
    split
    · exact writeBits_readSide _ r v d s
    · rfl

/-- What the storing commands keep of the fields they do not see. -/
theorem effect_keeps_readSide {i : Instr} (hi : (∃ b, i = .wrbit b) ∨ ∃ n, i = .enc n) (s : State) :
    (effect i s).rcur = s.rcur ∧ (effect i s).res = s.res ∧ (effect i s).dx = s.dx := by
  rcases hi with ⟨b, rfl⟩ | ⟨sym, rfl⟩
  · obtain ⟨-, hres, hrcur, hdx⟩ := effect_wrbit_keeps b s
    exact ⟨hrcur, hres, hdx⟩
  · obtain ⟨hres, hrcur, hdx⟩ := encodeSymbol_keeps sym s
    exact ⟨hrcur, hres, hdx⟩

/-- The storing commands neither read nor write `RCUR` (10_state.md R17). -/
theorem effect_setRcur_of_storing {i : Instr} (hi : (∃ b, i = .wrbit b) ∨ ∃ n, i = .enc n) (v : Word) (s : State) :
    effect i (s.setRcur v) = (effect i s).setRcur v := by
  obtain ⟨-, hres, hdx⟩ := effect_keeps_readSide hi s
  calc effect i (s.setRcur v) = (effect i s).readSide v s.res s.dx := effect_readSide hi v s.res s.dx s
    _ = (effect i s).setRcur v := by
      rw [← hres, ← hdx]
      rfl

/-- The loop of `DEC` neither reads nor writes `WCUR` (44_decoder.md R87). -/
theorem decodeLoop_setWcur (n : Nat) (acc : Acc) (v : Word) (s : State) :
    decodeLoop n acc (s.setWcur v) = (decodeLoop n acc s).setWcur v := by
  induction n generalizing acc s with
  | zero => rfl
  | succ n ih =>
    cases hadm : s.admits s.rcur with
    | false =>
      rw [decodeLoop_succ_of_not_admits n acc hadm, decodeLoop_succ_of_not_admits (s := s.setWcur v) n acc hadm]
      rfl
    | true =>
      cases hl : accLookup s.rom (appendBit acc (s.bit s.rcur.toNat)) with
      | some sym =>
        rw [decodeLoop_succ_of_found n hadm hl, decodeLoop_succ_of_found (s := s.setWcur v) n hadm hl]
        rfl
      | none =>
        rw [decodeLoop_succ_of_not_found n hadm hl, decodeLoop_succ_of_not_found (s := s.setWcur v) n hadm hl]
        exact ih _ (s.setRcur (s.rcur + 1#32))

/-- `RDBIT` neither reads nor writes `WCUR` (42_bit_reader.md R75). -/
theorem effect_rdbit_setWcur (v : Word) (s : State) :
    effect .rdbit (s.setWcur v) = (effect .rdbit s).setWcur v := by
  cases hadm : s.admits s.rcur with
  | true =>
    rw [effect_rdbit_of_admits hadm, effect_rdbit_of_admits (s := s.setWcur v) hadm]
    rfl
  | false =>
    rw [effect_rdbit_of_not_admits hadm, effect_rdbit_of_not_admits (s := s.setWcur v) hadm]
    rfl

/-! ### `RES` and `STATUS.DX` -/

/-- The state with other values of `RES` and `STATUS.DX`. -/
def State.withResult (v : Word) (d : Bool) (s : State) : State := { s with res := v, dx := d }

/-- From `s` to `t`, and from `s` with `RES` `v` and `DX` `d` to `u`, the same was done: all but the two fields is
equal, and each of them was written alike or kept in both (10_state.md R19, R20). -/
def SameButResult (s t u : State) (v : Word) (d : Bool) : Prop :=
  { u with res := t.res, dx := t.dx } = t
    ∧ (u.res = t.res ∨ (u.res = v ∧ t.res = s.res)) ∧ (u.dx = t.dx ∨ (u.dx = d ∧ t.dx = s.dx))

/-- Both fields written alike. -/
theorem SameButResult.of_eq (s t : State) (v : Word) (d : Bool) : SameButResult s t t v d :=
  ⟨rfl, .inl rfl, .inl rfl⟩

/-- `RES` written alike, `DX` kept. -/
theorem SameButResult.of_setDx {s t : State} (v : Word) (d : Bool) (h : t.dx = s.dx) :
    SameButResult s t (t.setDx d) v d := ⟨rfl, .inl rfl, .inr ⟨rfl, h⟩⟩

/-- Both fields kept. -/
theorem SameButResult.of_withResult {s t : State} (v : Word) (d : Bool) (hres : t.res = s.res) (hdx : t.dx = s.dx) :
    SameButResult s t (t.withResult v d) v d := ⟨rfl, .inr ⟨rfl, hres⟩, .inr ⟨rfl, hdx⟩⟩

/-- The loop of `DEC` writes `RES` and `DX` or, by a fault, keeps them (44_decoder.md R87). -/
theorem decodeLoop_withResult (n : Nat) (acc : Acc) (v : Word) (d : Bool) (s : State) :
    SameButResult s (decodeLoop n acc s) (decodeLoop n acc (s.withResult v d)) v d := by
  induction n generalizing acc s with
  | zero => exact .of_eq s (exceedDepth s) v d
  | succ n ih =>
    cases hadm : s.admits s.rcur with
    | false =>
      rw [decodeLoop_succ_of_not_admits n acc hadm, decodeLoop_succ_of_not_admits (s := s.withResult v d) n acc hadm]
      exact .of_withResult (t := s.raise .rdBounds) v d rfl rfl
    | true =>
      cases hl : accLookup s.rom (appendBit acc (s.bit s.rcur.toNat)) with
      | some sym =>
        rw [decodeLoop_succ_of_found n hadm hl, decodeLoop_succ_of_found (s := s.withResult v d) n hadm hl]
        exact .of_eq s (resolve sym (s.setRcur (s.rcur + 1#32))) v d
      | none =>
        rw [decodeLoop_succ_of_not_found n hadm hl, decodeLoop_succ_of_not_found (s := s.withResult v d) n hadm hl]
        exact ih _ (s.setRcur (s.rcur + 1#32))

/-- The storing commands keep `RES` and `DX` (41_bit_writer.md R71, 43_encoder.md R80). -/
theorem effect_withResult_of_storing {i : Instr} (hi : (∃ b, i = .wrbit b) ∨ ∃ n, i = .enc n) (v : Word) (d : Bool)
    (s : State) : SameButResult s (effect i s) (effect i (s.withResult v d)) v d := by
  obtain ⟨hrcur, hres, hdx⟩ := effect_keeps_readSide hi s
  have hu : effect i (s.withResult v d) = (effect i s).withResult v d :=
    calc effect i (s.withResult v d) = (effect i s).readSide s.rcur v d := effect_readSide hi s.rcur v d s
      _ = (effect i s).withResult v d := by
        rw [← hrcur]
        rfl
  rw [hu]
  exact .of_withResult v d hres hdx

/-- No effect reads `RES` or `DX` (10_state.md R19, R20). -/
theorem effect_withResult (i : Instr) (v : Word) (d : Bool) (s : State) :
    SameButResult s (effect i s) (effect i (s.withResult v d)) v d := by
  cases i with
  | wrbit b => exact effect_withResult_of_storing (.inl ⟨b, rfl⟩) v d s
  | enc sym => exact effect_withResult_of_storing (.inr ⟨sym, rfl⟩) v d s
  | dec => exact decodeLoop_withResult _ _ v d s
  | lksym sym => exact .of_setDx (t := effect (.lksym sym) s) v d rfl
  | lkpat pat len => exact .of_setDx (t := effect (.lkpat pat len) s) v d rfl
  | rdbit =>
    cases hadm : s.admits s.rcur with
    | true =>
      rw [effect_rdbit_of_admits hadm, effect_rdbit_of_admits (s := s.withResult v d) hadm]
      exact .of_setDx (t := (s.setRcur (s.rcur + 1#32)).setRes ((s.bit s.rcur.toNat).setWidth 32)) v d rfl
    | false =>
      rw [effect_rdbit_of_not_admits hadm, effect_rdbit_of_not_admits (s := s.withResult v d) hadm]
      exact .of_withResult (t := s.raise .rdBounds) v d rfl rfl

/-! ### How far the cursors move -/

/-- A run of bit writes moves `WCUR` up by at most its length (41_bit_writer.md R70). -/
theorem writeBits_wcur_bounds (bs : List Bit) {s : State} (hB : s.bufBytes ≤ 2 ^ 28) :
    s.wcur.toNat ≤ (writeBits bs s).wcur.toNat ∧ (writeBits bs s).wcur.toNat ≤ s.wcur.toNat + bs.length := by
  induction bs generalizing s with
  | nil => exact ⟨le_rfl, le_rfl⟩
  | cons b bs ih =>
    rw [writeBits_cons, List.length_cons]
    rcases writeBit_cases b s with ⟨hadm, hw⟩ | ⟨-, hw⟩ <;> rw [hw]
    · have hsucc := State.toNat_succ hB hadm
      split
      · rw [State.setWcur_wcur]
        omega
      · have hrest := ih (s := (s.setBufByte (byteIndex s.wcur) (byteWithBit b s)).setWcur (s.wcur + 1#32)) hB
        rw [State.setWcur_wcur] at hrest
        omega
    · rw [if_pos (by simp [State.Running]), State.raise_wcur]
      omega

/-- The loop of `DEC` moves `RCUR` up by at most the bits it may read (44_decoder.md R87). -/
theorem decodeLoop_rcur_bounds (n : Nat) (acc : Acc) {s : State} (hB : s.bufBytes ≤ 2 ^ 28) :
    s.rcur.toNat ≤ (decodeLoop n acc s).rcur.toNat ∧ (decodeLoop n acc s).rcur.toNat ≤ s.rcur.toNat + n := by
  induction n generalizing acc s with
  | zero => exact ⟨le_rfl, le_rfl⟩
  | succ n ih =>
    cases hadm : s.admits s.rcur with
    | false =>
      rw [decodeLoop_succ_of_not_admits n acc hadm, State.raise_rcur]
      omega
    | true =>
      have hsucc := State.toNat_succ hB hadm
      cases hl : accLookup s.rom (appendBit acc (s.bit s.rcur.toNat)) with
      | some sym =>
        rw [decodeLoop_succ_of_found n hadm hl, resolve, State.setDx_rcur, State.setRes_rcur, State.setRcur_rcur]
        omega
      | none =>
        rw [decodeLoop_succ_of_not_found n hadm hl]
        have hrest := ih (appendBit acc (s.bit s.rcur.toNat)) (s := s.setRcur (s.rcur + 1#32)) hB
        rw [State.setRcur_rcur] at hrest
        omega

/-- A command moves `WCUR` up by at most the longest code (00_scope.md R8 a). -/
theorem effect_wcur_bounds (i : Instr) {s : State} (hinv : s.Inv) :
    s.wcur.toNat ≤ (effect i s).wcur.toNat ∧ (effect i s).wcur.toNat ≤ s.wcur.toNat + 11 := by
  have hkept (h : (effect i s).wcur = s.wcur) :
      s.wcur.toNat ≤ (effect i s).wcur.toNat ∧ (effect i s).wcur.toNat ≤ s.wcur.toNat + 11 := by
    rw [h]
    omega
  cases i with
  | wrbit b =>
    have hrun := writeBits_wcur_bounds [b] hinv.sizeMax
    rw [List.length_singleton] at hrun
    rw [effect_wrbit]
    omega
  | enc sym =>
    rcases encodeSymbol_cases sym s with ⟨-, he⟩ | ⟨-, he⟩
    · have hrun := writeBits_wcur_bounds (codeBits (s.rom.entry (sym.setWidth 8))) hinv.sizeMax
      have hmax := (codeLen_bounds hinv.table (sym.setWidth 8)).2
      rw [codeBits_length] at hrun
      rw [effect_enc, he]
      omega
    · exact hkept (by rw [effect_enc, he, State.raise_wcur])
  | rdbit => exact hkept (effect_keeps_of_loading s (.inl rfl)).2
  | dec => exact hkept (effect_keeps_of_loading s (.inr (.inl rfl))).2
  | lksym | lkpat => exact hkept rfl

/-- A command moves `RCUR` up by at most `DEPTH_BITS` (00_scope.md R8 a, 44_decoder.md R92). -/
theorem effect_rcur_bounds (i : Instr) {s : State} (hinv : s.Inv) :
    s.rcur.toNat ≤ (effect i s).rcur.toNat ∧ (effect i s).rcur.toNat ≤ s.rcur.toNat + 12 := by
  have hkept (h : (effect i s).rcur = s.rcur) :
      s.rcur.toNat ≤ (effect i s).rcur.toNat ∧ (effect i s).rcur.toNat ≤ s.rcur.toNat + 12 := by
    rw [h]
    omega
  cases i with
  | wrbit b => exact hkept (effect_keeps_readSide (.inl ⟨b, rfl⟩) s).1
  | enc sym => exact hkept (effect_keeps_readSide (.inr ⟨sym, rfl⟩) s).1
  | dec => exact decodeLoop_rcur_bounds 12 emptyAcc hinv.sizeMax
  | lksym | lkpat => exact hkept rfl
  | rdbit =>
    rcases effect_rdbit_cases s with ⟨hadm, he⟩ | ⟨-, he⟩
    · have hsucc := State.toNat_succ hinv.sizeMax hadm
      rw [he, State.setRes_rcur, State.setRcur_rcur]
      omega
    · exact hkept (by rw [he, State.raise_rcur])

end Sys2Proof.Machine

namespace Sys2Proof

open Machine

/-- Settles O50: halted, both fields are kept in both runs; running, `effect_withResult`. -/
theorem resultAndDxAreNeverRead : Obligations.ResultAndDxAreNeverRead := by
  intro i s t v d h
  rw [exec_eq] at h
  obtain rfl := Host.Outcome.next.inj h
  refine ⟨_, exec_eq i (s.withResult v d), ?_⟩
  by_cases hr : s.Running
  · rw [whenRunning_of_running _ s hr, whenRunning_of_running _ (s.withResult v d) hr]
    exact effect_withResult i v d s
  · rw [whenRunning_of_halted _ s hr, whenRunning_of_halted _ (s.withResult v d) hr]
    exact SameButResult.of_withResult (t := s) v d rfl rfl

/-- Settles O51: each command's effect is the same under a change of the cursors it does not use. -/
theorem cursorsAreIndependent : Obligations.CursorsAreIndependent := by
  refine ⟨fun i s t v hi h => ?_, fun i s t v hi h => ?_, fun i s t v w hi h => ?_⟩
  · exact exec_comm (g := State.setRcur v) Iff.rfl (effect_setRcur_of_storing hi v s) h
  · refine exec_comm (g := State.setWcur v) Iff.rfl ?_ h
    rcases hi with rfl | rfl
    · exact effect_rdbit_setWcur v s
    · exact decodeLoop_setWcur _ _ v s
  · refine exec_comm (g := fun s => { s with wcur := v, rcur := w }) Iff.rfl ?_ h
    rcases hi with ⟨n, rfl⟩ | ⟨p, l, rfl⟩ <;> rfl

/-- Settles O54: halted, the cursors stay; running, by the bounds on the effects. -/
theorem cursorsNeverWrap : Obligations.CursorsNeverWrap := by
  intro i s t hinv h
  obtain rfl | ⟨-, rfl⟩ := exec_next_cases h
  · omega
  · obtain ⟨hwmin, hwmax⟩ := effect_wcur_bounds i hinv
    obtain ⟨hrmin, hrmax⟩ := effect_rcur_bounds i hinv
    exact ⟨hwmin, hwmax, hrmin, hrmax⟩

end Sys2Proof
end
